-- ==== Sys2Proof/Word.lean ====
section
/-! DEFINITION. The two bit vector types of the engine (00_scope.md R6): a byte and a 64-bit word. Addition,
subtraction, multiplication and exclusive or on words are those of `BitVec 64`, which wrap modulo 2^64
(40_primitives.md R80 to R83); the rotation and the byte order live in Machine/Operands.lean. -/

namespace Sys2Proof

/-- A byte, `U8` (R6). -/
abbrev Byte := BitVec 8

/-- A 64-bit word, `U64` (R6): a lane, `VSEED`, a constant, a value returned by a read primitive, `TOTAL`. -/
abbrev Word := BitVec 64

end Sys2Proof
end

