-- ==== Sys2Proof/Config.lean ====
section
/-! DEFINITION. What is fixed for one engine instance (00_scope.md R5, 10_state.md R34), and the free values: what the
spec leaves unspecified after reset (R35, 93_implementation_defined.md U3). The values of the constants stand in
Machine/Operands.lean. -/

namespace Sys2Proof

/-- The parameter `VARIANT` (R5): which of the two engines an instance is. Fixed per instance. -/
inductive Variant where
  /-- the 64-bit engine -/
  | m64
  /-- the 128-bit engine -/
  | m128
  deriving DecidableEq, Repr

/-- The four multiplier constants of one variant (R88). -/
structure Constants where
  k0 : Word
  k1 : Word
  k2 : Word
  k3 : Word
  deriving DecidableEq, Repr

namespace Config

/-- The word a 64-bit register holds after a reset and before the first `INIT`: a free value, one for each reset
(first argument) and each register (second argument: 0 to 3 the lanes, 4 `VSEED`, 5 `TOTAL`). The spec calls it
unspecified and asks that it be given no definite value (R35, U3). Mark: DESIGN CHOICE (log entry 2, which says what is
unsafe and what is safe in it). -/
opaque resetWord : Nat → Nat → Word

/-- The variant of the instance that `State.reset` describes. The spec leaves `VARIANT` open (decision D2); every
statement of this package that is not about this one reset state quantifies over both variants. Mark: DESIGN CHOICE
(log entry 1). -/
def resetVariant : Variant := .m128

end Config

end Sys2Proof
end

