-- ==== Sys2Proof/Syntax.lean ====
section
/-! DEFINITION. The command set (00_scope.md R15, 30_encoding.md R60): one constructor per row of the opcode table. -/

namespace Sys2Proof

/-- A command with its operands by value (R60, R61). -/
inductive Instr where
  /-- `INIT seed` (R100). -/
  | init (seed : Word)
  /-- `WRITE c` (R110): a payload of any length; `LEN` is its length. -/
  | write (payload : List Byte)
  /-- `FINISH` (R130 on `M64`, R160 on `M128`). -/
  | finish
  /-- `FINISH128` (R150). -/
  | finish128
  /-- `NEW` (R103), the pseudo-command: it has no encoding of its own, its bytes are those of `INIT 0` (R72). -/
  | new
  deriving DecidableEq, Repr

end Sys2Proof
end

