-- ==== Sys2Proof/Machine/State.lean ====
section
/-! DEFINITION. The state of one engine instance as plain data (10_state.md R20 to R25), its status codes and responses
(60_exceptions.md R191, 30_encoding.md R70), the reasons a step can stop, and the state after reset (R35, R210). -/

namespace Sys2Proof.Machine

/-- Four 64-bit words: the lanes `v[0..3]` (R21), or the working copy `w[0..3]` of a finalisation (R28). -/
structure Lanes where
  v0 : Word
  v1 : Word
  v2 : Word
  v3 : Word
  deriving DecidableEq, Repr

/-- The byte storage of the pending buffer (R24): the cells that differ from what an unlisted offset reads as, by
strictly rising offset. The canonical form is `Memory.wf` in Machine/Ops.lean. -/
abbrev Memory := List Host.Cell

/-- The state of one engine instance. -/
structure State where
  /-- `VARIANT` (R5, R34): the instance's configuration. No command writes it. Held here because the host's interface
  gives a step no other argument (log entry 1). -/
  variant : Variant
  /-- The lanes `v[0..3]` (R21). -/
  v : Lanes
  /-- `VSEED` (R22). It exists on `M64` only; on `M128` the field is no state of the machine: it is 0 from reset on and
  no command reads or writes it (log entry 6). -/
  vseed : Word
  /-- `BUF[0..31]` (R24), as the list of its cells that are not 0 (log entry 7). -/
  buf : Memory
  /-- `TOTAL` (R23): 64 bits. -/
  total : Word
  /-- `INITD` (R25). -/
  initd : Bool
  /-- THE MODEL'S OWN: how many reset events came after power-on. It picks the free values the unspecified registers
  hold after a reset (R210, log entry 2). No command reads or writes it. -/
  resets : Nat
  /-- THE MODEL'S OWN: the bytes of the command stream (R61, R69) that the host has presented and the engine has not
  consumed. In the spec the stream is the host's (R27); a step needs it as data (log entry 3). -/
  input : List Byte
  /-- THE MODEL'S OWN: the response stream the engine has emitted so far (R70), oldest byte first (log entry 3). -/
  output : List Byte
  deriving DecidableEq, Repr

/-- The five status codes, and the only ones (R191, U9). -/
inductive Status where
  | ok
  | illegalCommand
  | notInitialised
  | wrongVariant
  | lengthOverflow
  deriving DecidableEq, Repr

/-- One response (R70): a status, and the digest words, the first word first. -/
structure Response where
  status : Status
  digest : List Word
  deriving DecidableEq, Repr

/-- Why the machine stops with a fault. -/
inductive Fault where
  /-- `bounded_copy` called outside its contract: "undefined by design" (40_primitives.md R87, R205, U1). Raised by
  `WRITE`'s two copies if their ranges were illegal; by 42_write.md R118 they never are, so no state and no payload
  reaches it. Safe: it gives the undefined case no result (log entry 14). -/
  | boundedCopyContract
  deriving DecidableEq, Repr

/-- Why the machine refuses an instruction. The refusals of the spec's command interface (R191) are none of these: they
are responses, and the machine goes on (R195, log entry 12). -/
inductive Refusal where
  /-- The instruction has no meaning in this model. Raised by no arm of `exec`: every command has its meaning. Safe. -/
  | notModelled (mnemonic : String)
  deriving DecidableEq, Repr

/-- What the field `vseed` holds after a reset: on `M64` the free value of an unspecified register (R35, log entry 2), on
`M128` 0, where there is no such register (log entry 6). -/
def resetVseed (variant : Variant) (n : Nat) : Word :=
  match variant with
  | .m64 => Config.resetWord n 4
  | .m128 => 0

/-- The registers right after the `n`-th reset event of an instance of variant `variant`, with `input` as its command
stream and `output` already emitted: `INITD = 0`, every other register unspecified (R35, R210), here a free value
(log entry 2). `BUF` is unspecified too; the model lists no cell (log entry 4). -/
def State.afterReset (variant : Variant) (n : Nat) (input output : List Byte) : State where
  variant := variant
  v := ⟨Config.resetWord n 0, Config.resetWord n 1, Config.resetWord n 2, Config.resetWord n 3⟩
  vseed := resetVseed variant n
  buf := []
  total := Config.resetWord n 5
  initd := false
  resets := n
  input := input
  output := output

/-- An instance of the given variant right after power-on: no command presented, no response emitted. -/
def State.powerOn (variant : Variant) : State := State.afterReset variant 0 [] []

/-- The machine right after reset (R35): `INITD = 0`. -/
def State.reset : State := State.powerOn Config.resetVariant

end Sys2Proof.Machine
end

