-- ==== Sys2Proof/Machine/Flags.lean ====
section
/-! DEFINITION. The one flag, `INITD` (10_state.md R25), and the tests that steer a command. The engine has no condition
codes (R26): the tests below "are computed from `TOTAL` and the payload length inside the command and are not kept". -/

namespace Sys2Proof.Machine

/-- `TOTAL mod 32` of a count (R12, R29). -/
def fillOf (total : Word) : Nat := total.toNat % 32

/-- `fill`, the number of live bytes in `BUF` (R29). -/
def State.fill (s : State) : Nat := fillOf s.total

/-- The test of `LENGTH_OVERFLOW` (R117, R191): `TOTAL + n > 2^64 − 1`, in exact arithmetic (R9). -/
def lengthOverflows (total : Word) (n : Nat) : Bool := decide (2 ^ 64 - 1 < total.toNat + n)

/-- The test of the bulk part of finalisation (R130, R150): `TOTAL >= 32`. -/
def bulkRuns (total : Word) : Bool := decide (32 ≤ total.toNat)

/-- `INITD <- 1` (R100), the one write of the flag by a command. -/
def State.setInitd (s : State) : State := { s with initd := true }

end Sys2Proof.Machine
end

