-- ==== Sys2Proof/Machine/Operands.lean ====
section
/-! DEFINITION. The arithmetic and byte-order primitives on words and bytes (40_primitives.md R80 to R86, 20_memory.md
R41, R42) and the multiplier constants (R88). Addition, subtraction, multiplication and exclusive or are written
`+`, `-`, `*`, `^^^` on `Word`. -/

namespace Sys2Proof

/-- `rotr(x, r)`, rotate right by a constant amount (R84): `((x >> r) | (x << (64 − r))) mod 2^64`, for
`1 <= r <= 63`. -/
def rotr (x : Word) (r : Nat) : Word := (x >>> r) ||| (x <<< (64 - r))

/-- `zext_64(b)` of a byte (R10). -/
def zext64 (b : Byte) : Word := b.setWidth 64

/-- `LE(b0, ..., b(n−1)) = b0 + 256*b1 + ...` (R10) as a word: the byte at the lowest offset is the least significant
(R41), and fewer than eight bytes are zero-extended (R85). -/
def leWord : List Byte → Word
  | [] => 0
  | b :: bs => zext64 b + 256 * leWord bs

/-- Byte `i` of a word, byte 0 the least significant. -/
def wordByte (w : Word) (i : Nat) : Byte := w.extractLsb' (8 * i) 8

/-- A word as 8 bytes, least significant byte first (R42, R63, R64). -/
def wordBytes (w : Word) : List Byte :=
  [wordByte w 0, wordByte w 1, wordByte w 2, wordByte w 3, wordByte w 4, wordByte w 5, wordByte w 6, wordByte w 7]

/-- `InRead(c, off, n)` (R10): the `n` bytes of the payload `c` from offset `off`, little-endian, zero-extended. It is
`read_u8` to `read_u64` and `read_u64_unaligned` of R85 and R86 on a payload, which has no alignment (R44). -/
def inRead (c : List Byte) (off n : Nat) : Word := leWord ((c.drop off).take n)

/-- The constants `K0..K3` of each variant (R88). Mark: TESTED. The spec takes the values from general knowledge and
records that they reproduce its source's four vectors (93_implementation_defined.md G1, G2; log entry 10). -/
def constants : Variant → Constants
  | .m64 => ⟨0xD6D018F5, 0xA2AA033B, 0x62992FC1, 0x30BC5B29⟩
  | .m128 => ⟨0xC83A91E1, 0x8648DBDB, 0x7BDEC03B, 0x2F5870A5⟩

end Sys2Proof
end

