-- ==== Sys2Proof/Machine/Ops.lean ====
section
/-! DEFINITION. The shared operations: the pending buffer's memory (20_memory.md R40 to R46), `bounded_copy` (R87), the
block mix (R112), responses (R70), the refusal of a command (R195, the engine's only exception; there is no return from
one, R196), and the platform's reset event and presentation of commands (R210, R69). -/

namespace Sys2Proof.Machine

/-! ### Memory of the pending buffer -/

/-- What an unlisted offset of `BUF` reads as: 0, which `INIT` writes to all 32 cells (R100, decision D13). Before the
first `INIT` the spec gives no value (R35); log entry 4. -/
def Memory.unlisted : Byte := 0

/-- How many cells `BUF` has (R24). -/
def Memory.size : Nat := 32

/-- The canonical form from a lower bound on: strictly rising offsets, no cell equal to what an unlisted offset reads
as, every offset one of the 32. -/
def Memory.wfFrom (lo : Nat) : Memory → Bool
  | [] => true
  | (a, b) :: m => decide (lo ≤ a) && decide (a < Memory.size) && decide (b ≠ Memory.unlisted) && Memory.wfFrom (a + 1) m

/-- The canonical form of `BUF`. -/
def Memory.wf (m : Memory) : Bool := Memory.wfFrom 0 m

/-- `BUF[a]`. -/
def Memory.read : Memory → Nat → Byte
  | [], _ => Memory.unlisted
  | (a', b) :: m, a => if a = a' then b else Memory.read m a

/-- `BUF[a] <- b`, keeping the canonical form: writing the value an unlisted offset reads as removes the entry. -/
def Memory.write : Memory → Nat → Byte → Memory
  | [], a, b => if b = Memory.unlisted then [] else [(a, b)]
  | (a', b') :: m, a, b =>
    if a < a' then (if b = Memory.unlisted then (a', b') :: m else (a, b) :: (a', b') :: m)
    else if a = a' then (if b = Memory.unlisted then m else (a, b) :: m)
    else (a', b') :: Memory.write m a b

/-- `BUF` with every cell 0 (R100). -/
def Memory.zeroed : Memory := []

/-- The bytes `BUF[a] .. BUF[a+n−1]`. -/
def memBytes (m : Memory) (a n : Nat) : List Byte := (List.range n).map fun j => m.read (a + j)

/-- `MemRead(addr, n)` (R10, R85): little-endian, zero-extended. No bound is checked at run time (R46): every read the
rules make lies inside `BUF` (log entry 15). -/
def memRead (m : Memory) (a n : Nat) : Word := leWord (memBytes m a n)

/-- `MemWrite(addr, n, v)` (R10): the low `n` bytes of `v`, least significant byte at `addr`. -/
def memWrite (m : Memory) (a : Nat) : Nat → Word → Memory
  | 0, _ => m
  | n + 1, v => memWrite (m.write a (v.setWidth 8)) (a + 1) n (v >>> 8)

/-- `BUF[d + j] <- b_j` for the bytes of a list in turn, each by a one-byte `MemWrite` (R87). -/
def putCells (m : Memory) (d : Nat) : List Byte → Memory
  | [] => m
  | b :: bs => putCells (memWrite m d 1 (zext64 b)) (d + 1) bs

/-- `bounded_copy(c, s, d, n)` (R87): `BUF[d + j] <- c[s + j]` for `j < n`. Defined only inside its contract `n < 32`,
`s + n <= |c|`, `d + n <= 32`; outside it the copy is "undefined by design" and gives no result (U1). -/
def boundedCopy (c : List Byte) (s d n : Nat) (m : Memory) : Option Memory :=
  if n < 32 ∧ s + n ≤ c.length ∧ d + n ≤ Memory.size then some (putCells m d ((c.drop s).take n)) else none

/-! ### The block mix -/

/-- `MixBlock(x0, x1, x2, x3)` (R112): four updates in this order, each reading the current lanes, so that lanes 2 and 3
feed forward from the new lanes 0 and 1. The same procedure with the same lane map on both variants (R120). -/
def mixBlock (k : Constants) (l : Lanes) (x0 x1 x2 x3 : Word) : Lanes :=
  let l := { l with v0 := rotr (l.v0 + x0 * k.k0) 29 + l.v2 }
  let l := { l with v1 := rotr (l.v1 + x1 * k.k1) 29 + l.v3 }
  let l := { l with v2 := rotr (l.v2 + x2 * k.k2) 29 + l.v0 }
  { l with v3 := rotr (l.v3 + x3 * k.k3) 29 + l.v1 }

/-- `MixBlock` of the full buffer (R111 step 2): the words at offsets 0, 8, 16 and 24. -/
def mixMemory (k : Constants) (m : Memory) (l : Lanes) : Lanes :=
  mixBlock k l (memRead m 0 8) (memRead m 8 8) (memRead m 16 8) (memRead m 24 8)

/-- `MixBlock` of the 32 bytes of a payload from offset `p` (R111 step 3). -/
def mixPayload (k : Constants) (c : List Byte) (p : Nat) (l : Lanes) : Lanes :=
  mixBlock k l (inRead c p 8) (inRead c (p + 8) 8) (inRead c (p + 16) 8) (inRead c (p + 24) 8)

/-- `count` turns of the block loop of R111 from cursor `p`; the loop runs `(n − p) div 32` times (R71). -/
def mixPayloadLoop (k : Constants) (c : List Byte) : Nat → Nat → Lanes → Lanes
  | 0, _, l => l
  | count + 1, p, l => mixPayloadLoop k c count (p + 32) (mixPayload k c p l)

/-! ### Named updates of the state -/

/-- The lanes written. -/
def State.withLanes (s : State) (l : Lanes) : State := { s with v := l }

/-- `BUF` written. -/
def State.withBuf (s : State) (m : Memory) : State := { s with buf := m }

/-- `TOTAL <- TOTAL + n`. Commands call it only where the sum does not pass 2^64 − 1 (R117). -/
def State.addTotal (s : State) (n : Nat) : State := { s with total := s.total + BitVec.ofNat 64 n }

/-- The command stream with the bytes before `rest` consumed (R69). -/
def State.withInput (s : State) (rest : List Byte) : State := { s with input := rest }

/-! ### Responses and refusals -/

/-- The code of a status (R191). -/
def Status.code : Status → Byte
  | .ok => 0x00
  | .illegalCommand => 0x01
  | .notInitialised => 0x02
  | .wrongVariant => 0x03
  | .lengthOverflow => 0x04

/-- The bytes of a response (R70): the status byte, then each digest word as 8 bytes, least significant first. -/
def Response.bytes (r : Response) : List Byte := r.status.code :: r.digest.flatMap wordBytes

/-- Emits one response. -/
def State.respond (s : State) (r : Response) : State := { s with output := s.output ++ r.bytes }

/-- `respond OK`, with the digest words the command returns. -/
def State.respondOk (s : State) (digest : List Word) : State := s.respond ⟨.ok, digest⟩

/-- `raise <Status>()` (R11, R195): the refusal of a command, the engine's only exception. It emits the one status byte
and changes no architectural state: it saves nothing, switches no mode and transfers control nowhere, and the machine
goes on with the next command. There is no return from it (R196). -/
def State.refuse (s : State) (status : Status) : State := s.respond ⟨status, []⟩

/-! ### What the platform and the host do between steps -/

/-- The reset event (R210, R212): `INITD <- 0`, every other register unspecified, the first command at byte 0 of the
command stream that the host presents from then on (R69). Responses already emitted stay with the host (log entry
11). -/
def State.assertReset (s : State) (stream : List Byte) : State :=
  State.afterReset s.variant (s.resets + 1) stream s.output

/-- The host presents further bytes of the command stream (R69, U10: bytes that arrive later complete a command). -/
def State.present (s : State) (bytes : List Byte) : State := { s with input := s.input ++ bytes }

end Sys2Proof.Machine
end

