-- ==== Sys2Proof/Machine/Finish.lean ====
section
/-! DEFINITION. Finalisation of both variants, and the commands `FINISH` and `FINISH128` (43_finish64.md, 44_finish128.md).
A finalisation works on a copy of the lanes and writes no state (R28, R130). -/

namespace Sys2Proof.Machine

/-- The working registers of a finalisation (R28): the copy `w[0..3]` and the tail cursor `ptr`. -/
structure Work where
  w : Lanes
  ptr : Nat
  deriving DecidableEq, Repr

/-- The cross-lane mixing of R131 and R151, lane 2 first, each statement reading the current values; the two variants
differ in the constants and the rotation amount. -/
def bulkMix (k : Constants) (amount : Nat) (w : Lanes) : Lanes :=
  let w := { w with v2 := w.v2 ^^^ (rotr ((w.v0 + w.v3) * k.k0 + w.v1) amount * k.k1) }
  let w := { w with v3 := w.v3 ^^^ (rotr ((w.v1 + w.v2) * k.k1 + w.v0) amount * k.k0) }
  let w := { w with v0 := w.v0 ^^^ (rotr ((w.v0 + w.v2) * k.k0 + w.v3) amount * k.k1) }
  { w with v1 := w.v1 ^^^ (rotr ((w.v1 + w.v3) * k.k1 + w.v2) amount * k.k0) }

/-- One threshold test of the tail (R133, R152): the step runs when at least `width` tail bytes are not yet consumed. -/
def tailStep (tailEnd width : Nat) (step : Work → Work) (x : Work) : Work :=
  if width ≤ tailEnd - x.ptr then step x else x

/-! ### The 64-bit variant -/

/-- `BulkFin64` (R131). -/
def bulkFin64 (w : Lanes) : Lanes := bulkMix (constants .m64) 37 w

/-- `Fold64` (R132): the one place `VSEED` is read. -/
def fold64 (vseed : Word) (w : Lanes) : Lanes := { w with v0 := vseed + (w.v0 ^^^ w.v1) }

/-- `Tail16_64` (R134): `w[1]` and `w[2]` are assigned from `w[0]`, cross-mixed, and folded into `w[0]`. -/
def tail16_64 (m : Memory) (x : Work) : Work :=
  let k := constants .m64
  let w := x.w
  let w := { w with v1 := w.v0 + memRead m x.ptr 8 * k.k2 }
  let w := { w with v1 := rotr w.v1 29 * k.k3 }
  let w := { w with v2 := w.v0 + memRead m (x.ptr + 8) 8 * k.k2 }
  let w := { w with v2 := rotr w.v2 29 * k.k3 }
  let w := { w with v1 := w.v1 ^^^ (rotr (w.v1 * k.k0) 21 + w.v2) }
  let w := { w with v2 := w.v2 ^^^ (rotr (w.v2 * k.k3) 21 + w.v1) }
  { w := { w with v0 := w.v0 + w.v2 }, ptr := x.ptr + 16 }

/-- The absorb step of R135 to R138: `w[0] += read * K3`, advance, `w[0] ^= rotr(w[0], amount) * K1`. -/
def absorb64 (width amount : Nat) (m : Memory) (x : Work) : Work :=
  let k := constants .m64
  let w := x.w
  let w := { w with v0 := w.v0 + memRead m x.ptr width * k.k3 }
  { w := { w with v0 := w.v0 ^^^ (rotr w.v0 amount * k.k1) }, ptr := x.ptr + width }

/-- `Tail8_64` (R135). -/
def tail8_64 (m : Memory) (x : Work) : Work := absorb64 8 55 m x

/-- `Tail4_64` (R136). -/
def tail4_64 (m : Memory) (x : Work) : Work := absorb64 4 26 m x

/-- `Tail2_64` (R137). -/
def tail2_64 (m : Memory) (x : Work) : Work := absorb64 2 48 m x

/-- `Tail1_64` (R138). -/
def tail1_64 (m : Memory) (x : Work) : Work := absorb64 1 37 m x

/-- `Aval64` (R139): three operations, once (90_conflicts.md C3). -/
def aval64 (w : Lanes) : Lanes :=
  let k := constants .m64
  let w := { w with v0 := w.v0 ^^^ rotr w.v0 28 }
  let w := { w with v0 := w.v0 * k.k0 }
  { w with v0 := w.v0 ^^^ rotr w.v0 29 }

/-- The five tail tests of R130 in turn, each on the cursor the steps before it left (90_conflicts.md C2). -/
def tails64 (m : Memory) (tailEnd : Nat) (x : Work) : Work :=
  let x := tailStep tailEnd 16 (tail16_64 m) x
  let x := tailStep tailEnd 8 (tail8_64 m) x
  let x := tailStep tailEnd 4 (tail4_64 m) x
  let x := tailStep tailEnd 2 (tail2_64 m) x
  tailStep tailEnd 1 (tail1_64 m) x

/-- The bulk part of R130, run only when `TOTAL >= 32`. -/
def bulk64 (vseed total : Word) (w : Lanes) : Lanes :=
  if bulkRuns total then fold64 vseed (bulkFin64 w) else w

/-- The working lanes at the end of `FINISH` on `M64` (R130). -/
def final64 (v : Lanes) (vseed : Word) (m : Memory) (total : Word) : Lanes :=
  aval64 (tails64 m (fillOf total) { w := bulk64 vseed total v, ptr := 0 }).w

/-! ### The 128-bit variant -/

/-- `BulkFin128` (R151). -/
def bulkFin128 (w : Lanes) : Lanes := bulkMix (constants .m128) 21 w

/-- `Tail16_128` (R153): both working lanes accumulate. -/
def tail16_128 (m : Memory) (x : Work) : Work :=
  let k := constants .m128
  let w := x.w
  let w := { w with v0 := w.v0 + memRead m x.ptr 8 * k.k2 }
  let w := { w with v0 := rotr w.v0 33 * k.k3 }
  let w := { w with v1 := w.v1 + memRead m (x.ptr + 8) 8 * k.k2 }
  let w := { w with v1 := rotr w.v1 33 * k.k3 }
  let w := { w with v0 := w.v0 ^^^ (rotr (w.v0 * k.k2 + w.v1) 45 * k.k1) }
  { w := { w with v1 := w.v1 ^^^ (rotr (w.v1 * k.k3 + w.v0) 45 * k.k0) }, ptr := x.ptr + 16 }

/-- The absorb into `w[0]` of R154 and R156. -/
def absorb128Lane0 (width amount : Nat) (m : Memory) (x : Work) : Work :=
  let k := constants .m128
  let w := x.w
  let w := { w with v0 := w.v0 + memRead m x.ptr width * k.k2 }
  let w := { w with v0 := rotr w.v0 33 * k.k3 }
  { w := { w with v0 := w.v0 ^^^ (rotr (w.v0 * k.k2 + w.v1) amount * k.k1) }, ptr := x.ptr + width }

/-- The absorb into `w[1]` of R155 and R157. -/
def absorb128Lane1 (width amount : Nat) (m : Memory) (x : Work) : Work :=
  let k := constants .m128
  let w := x.w
  let w := { w with v1 := w.v1 + memRead m x.ptr width * k.k2 }
  let w := { w with v1 := rotr w.v1 33 * k.k3 }
  { w := { w with v1 := w.v1 ^^^ (rotr (w.v1 * k.k3 + w.v0) amount * k.k0) }, ptr := x.ptr + width }

/-- `Tail8_128` (R154). -/
def tail8_128 (m : Memory) (x : Work) : Work := absorb128Lane0 8 27 m x

/-- `Tail4_128` (R155). -/
def tail4_128 (m : Memory) (x : Work) : Work := absorb128Lane1 4 46 m x

/-- `Tail2_128` (R156). -/
def tail2_128 (m : Memory) (x : Work) : Work := absorb128Lane0 2 22 m x

/-- `Tail1_128` (R157). -/
def tail1_128 (m : Memory) (x : Work) : Work := absorb128Lane1 1 58 m x

/-- `Aval128` (R158): four statements, each reading the current values. -/
def aval128 (w : Lanes) : Lanes :=
  let k := constants .m128
  let w := { w with v0 := w.v0 + rotr (w.v0 * k.k0 + w.v1) 13 }
  let w := { w with v1 := w.v1 + rotr (w.v1 * k.k1 + w.v0) 37 }
  let w := { w with v0 := w.v0 + rotr (w.v0 * k.k2 + w.v1) 13 }
  { w with v1 := w.v1 + rotr (w.v1 * k.k3 + w.v0) 37 }

/-- The five tail tests of R150 in turn (R152). -/
def tails128 (m : Memory) (tailEnd : Nat) (x : Work) : Work :=
  let x := tailStep tailEnd 16 (tail16_128 m) x
  let x := tailStep tailEnd 8 (tail8_128 m) x
  let x := tailStep tailEnd 4 (tail4_128 m) x
  let x := tailStep tailEnd 2 (tail2_128 m) x
  tailStep tailEnd 1 (tail1_128 m) x

/-- The bulk part of R150, run only when `TOTAL >= 32`; no fold and no seed lane (R162). -/
def bulk128 (total : Word) (w : Lanes) : Lanes :=
  if bulkRuns total then bulkFin128 w else w

/-- `Final128` (R150): the working lanes at its end. -/
def final128 (v : Lanes) (m : Memory) (total : Word) : Lanes :=
  aval128 (tails128 m (fillOf total) { w := bulk128 total v, ptr := 0 }).w

/-! ### The commands -/

/-- The digest words of `FINISH` (R140, R160): `D0`, the only word of `M64` and the first word of the pair on `M128`. -/
def State.finishDigest (s : State) : List Word :=
  match s.variant with
  | .m64 => [(final64 s.v s.vseed s.buf s.total).v0]
  | .m128 => [(final128 s.v s.buf s.total).v0]

/-- The digest words of `FINISH128` on `M128` (R159): `D0`, `D1`. -/
def State.finish128Digest (s : State) : List Word :=
  let w := final128 s.v s.buf s.total
  [w.v0, w.v1]

/-- `FINISH` (R130 on `M64`, R160 on `M128`). -/
def execFinish (s : State) : Host.Outcome State Fault Refusal :=
  if s.initd = false then .next (s.refuse .notInitialised)
  else .next (s.respondOk s.finishDigest)

/-- `FINISH128` (R150): the variant test before the `INITD` test (R161, R194). -/
def execFinish128 (s : State) : Host.Outcome State Fault Refusal :=
  if s.variant = .m64 then .next (s.refuse .wrongVariant)
  else if s.initd = false then .next (s.refuse .notInitialised)
  else .next (s.respondOk s.finish128Digest)

end Sys2Proof.Machine
end

