-- ==== Sys2Proof/Machine/Init.lean ====
section
/-! DEFINITION. `INIT` and `NEW` (41_init.md R100 to R105). -/

namespace Sys2Proof.Machine

/-- `InitLanes64(seed)` (R101): all four lanes and `VSEED` to `(seed + K2) * K0`. -/
def initLanes64 (seed : Word) (s : State) : State :=
  let k := constants .m64
  let t := (seed + k.k2) * k.k0
  { s with v := ⟨t, t, t, t⟩, vseed := t }

/-- `InitLanes128(seed)` (R102): four distinct lane values; there is no `VSEED` to write. -/
def initLanes128 (seed : Word) (s : State) : State :=
  let k := constants .m128
  { s with v := ⟨(seed - k.k0) * k.k3, (seed + k.k1) * k.k2, (seed + k.k0) * k.k2, (seed - k.k1) * k.k3⟩ }

/-- The lane part of `INIT`, by variant (R100). -/
def initLanes (seed : Word) (s : State) : State :=
  match s.variant with
  | .m64 => initLanes64 seed s
  | .m128 => initLanes128 seed s

/-- A fresh accumulator (R100): lanes from the seed, `BUF` all 0, `TOTAL = 0`, `INITD = 1`. -/
def initAccumulator (seed : Word) (s : State) : State :=
  State.setInitd { (initLanes seed s).withBuf Memory.zeroed with total := 0 }

/-- `INIT seed` (R100, R104): legal in every state. -/
def execInit (seed : Word) (s : State) : Host.Outcome State Fault Refusal :=
  .next ((initAccumulator seed s).respondOk [])

/-- `NEW` (R103): exactly `INIT(0)`. -/
def execNew (s : State) : Host.Outcome State Fault Refusal :=
  .next ((initAccumulator 0 s).respondOk [])

end Sys2Proof.Machine
end

