-- ==== Sys2Proof/Machine/Write.lean ====
section
/-! DEFINITION. `WRITE` (42_write.md R110 to R119): the four steps of R111, and its byte-at-a-time form (R116). -/

namespace Sys2Proof.Machine

/-- Steps 3 and 4 of R111, entered with `TOTAL mod 32 = 0` and `p` bytes of the payload consumed: count the rest, mix its
whole blocks straight from the payload, and copy the 0 to 31 bytes left over to `BUF[0 ..]`. -/
def absorbAligned (c : List Byte) (p : Nat) (s : State) : Option State :=
  let n := c.length
  let s := s.addTotal (n - p)
  let count := (n - p) / 32
  let s := s.withLanes (mixPayloadLoop (constants s.variant) c count p s.v)
  let p := p + 32 * count
  if p < n then
    match boundedCopy c p 0 (n - p) s.buf with
    | none => none
    | some m => some (s.withBuf m)
  else some s

/-- The four steps of R111 once the command is accepted. Step 1 fills a partly filled buffer; step 2 mixes it only when
step 1 has just filled it (90_conflicts.md C6). -/
def absorb (c : List Byte) (s : State) : Option State :=
  let r := s.fill
  if r ≠ 0 then
    let fill := min (32 - r) c.length
    match boundedCopy c 0 r fill s.buf with
    | none => none
    | some m =>
      let s := (s.withBuf m).addTotal fill
      if s.fill ≠ 0 then some s
      else absorbAligned c fill (s.withLanes (mixMemory (constants s.variant) s.buf s.v))
  else absorbAligned c 0 s

/-- `WRITE c` (R111), its two refusals first, in the order of R194. -/
def execWrite (c : List Byte) (s : State) : Host.Outcome State Fault Refusal :=
  if s.initd = false then .next (s.refuse .notInitialised)
  else if lengthOverflows s.total c.length then .next (s.refuse .lengthOverflow)
  else
    match absorb c s with
    | none => .fault .boundedCopyContract
    | some t => .next (t.respondOk [])

/-- `PutByte(b)` (R116). -/
def putByte (b : Byte) (s : State) : State :=
  let s := (s.withBuf (s.buf.write s.fill b)).addTotal 1
  if s.fill = 0 then s.withLanes (mixMemory (constants s.variant) s.buf s.v) else s

/-- The bytes of a payload fed one by one to `PutByte` (R116), for a payload that `WRITE` accepts. The definition is total;
what it gives where `TOTAL` would pass 2^64 − 1 stands for nothing (log entry 19). -/
def putBytes : List Byte → State → State
  | [], s => s
  | b :: bs, s => putBytes bs (putByte b s)

end Sys2Proof.Machine
end

