-- ==== Sys2Proof/Machine/Dispatch.lean ====
section
/-! DEFINITION. One arm per command, each one direct call of its meaning. -/

namespace Sys2Proof.Machine

def exec (i : Instr) (s : State) : Host.Outcome State Fault Refusal :=
  match i with
  | .init seed => Sys2Proof.Machine.execInit seed s
  | .write payload => Sys2Proof.Machine.execWrite payload s
  | .finish => Sys2Proof.Machine.execFinish s
  | .finish128 => Sys2Proof.Machine.execFinish128 s
  | .new => Sys2Proof.Machine.execNew s

end Sys2Proof.Machine
end

