-- ==== Sys2Proof/WellFormed.lean ====
section
/-! DEFINITION. When a command fits its encoding (30_encoding.md R64, R65, R73). -/

namespace Sys2Proof

/-- A command whose operands fit the fields of its format. The only field that can be too small is `LEN`: a payload
has at most 2^64 - 1 bytes (R73: "a payload longer than 2^64 − 1 bytes" does not fit). Every seed is legal (R65). -/
abbrev Instr.WellFormed : Instr → Prop
  | .init _ => True
  | .write c => c.length < 2 ^ 64
  | .finish => True
  | .finish128 => True
  | .new => True

/-- The command that a command's bytes stand for: `NEW` assembles to exactly the bytes of `INIT 0` (R72), so a decoder
reads `INIT 0` where `NEW` was written; every other command stands for itself. -/
def Instr.core : Instr → Instr
  | .init seed => .init seed
  | .write c => .write c
  | .finish => .finish
  | .finish128 => .finish128
  | .new => .init 0

end Sys2Proof
end

