-- ==== Sys2Proof/Decode.lean ====
section
/-! DEFINITION. The command encoding (30_encoding.md R61 to R69): the decoder, total on any bytes, the encoder, and the
layout of an opcode-table word as the bytes of the command stream. -/

namespace Sys2Proof

/-- Why the decoder reads no command at the front of a byte stream. -/
inductive DecodeError where
  /-- The stream ends in the middle of a command (R69, U10); the empty stream is the case of no byte at all. -/
  | incomplete
  /-- The opcode byte is `0x00` or `0x05` to `0xFF` (R67). -/
  | illegalOpcode (op : Byte)
  deriving DecidableEq, Repr

/-- The opcode bytes of R66. -/
def opcodeInit : Byte := 0x01
def opcodeWrite : Byte := 0x02
def opcodeFinish : Byte := 0x03
def opcodeFinish128 : Byte := 0x04

/-- Format `S` after its opcode byte (R63): `SEED`, 8 bytes, least significant first. -/
def decodeSeedFormat (rest : List Byte) : Except DecodeError (Instr × List Byte) :=
  if rest.length < 8 then .error .incomplete
  else .ok (.init (leWord (rest.take 8)), rest.drop 8)

/-- Format `W` after its opcode byte (R64): `LEN`, 8 bytes, least significant first, then `LEN` payload bytes. The
decoder follows `LEN`, whatever bytes the host meant as payload (R217, U11). -/
def decodeWriteFormat (rest : List Byte) : Except DecodeError (Instr × List Byte) :=
  if rest.length < 8 then .error .incomplete
  else
    let len := (leWord (rest.take 8)).toNat
    let body := rest.drop 8
    if body.length < len then .error .incomplete
    else .ok (.write (body.take len), body.drop len)

/-- Reads one command from the front of the command stream and gives it with the rest of the stream (R66, R68, R69). -/
def decode : List Byte → Except DecodeError (Instr × List Byte)
  | [] => .error .incomplete
  | op :: rest =>
    if op = opcodeInit then decodeSeedFormat rest
    else if op = opcodeWrite then decodeWriteFormat rest
    else if op = opcodeFinish then .ok (.finish, rest)
    else if op = opcodeFinish128 then .ok (.finish128, rest)
    else .error (.illegalOpcode op)

/-- The bytes of a command (R62 to R66); `NEW` assembles to exactly the bytes of `INIT 0` (R72). A `WRITE` that is not
well-formed, with a payload longer than `LEN` can count, has no encoding: what the total definition gives it stands for
nothing (log entry 19). -/
def encode : Instr → List Byte
  | .init seed => opcodeInit :: wordBytes seed
  | .write c => opcodeWrite :: (wordBytes (BitVec.ofNat 64 c.length) ++ c)
  | .finish => [opcodeFinish]
  | .finish128 => [opcodeFinish128]
  | .new => opcodeInit :: wordBytes 0

/-- The length of a command, from its first byte and, for `WRITE`, from the following eight (R68). -/
def commandLength (op : Byte) (len : Nat) : Nat :=
  if op = opcodeInit then 9
  else if op = opcodeWrite then 9 + len
  else 1

/-- Byte `i` of the number `w` (byte 0 least significant, R61). -/
def natByte (w i : Nat) : Byte := BitVec.ofNat 8 (w / 2 ^ (8 * i))

/-- The bytes of the command whose word is `w`, read as one little-endian number (R61), of which the opcode table gives
the low `nbits` bits; every higher bit is 0. As many bytes as R68 gives the command. -/
def tableWordBytes (nbits w : Nat) : List Byte :=
  let bits := w % 2 ^ nbits
  (List.range (commandLength (natByte bits 0) (bits / 2 ^ 8 % 2 ^ 64))).map (natByte bits)

/-- The command the decoder reads from a word of the opcode table. -/
def decodeTableWord (nbits w : Nat) : Option Instr :=
  match decode (tableWordBytes nbits w) with
  | .ok (i, _) => some i
  | .error _ => none

end Sys2Proof
end

