-- ==== Sys2Proof/Machine/Fetch.lean ====
section
/-! DEFINITION. Taking the next command from the command stream (30_encoding.md R67 to R69). -/

namespace Sys2Proof.Machine

/-- What stands at the front of the command stream. -/
inductive Fetched where
  /-- A whole command, and the state with its bytes consumed. -/
  | command (i : Instr) (s : State)
  /-- An illegal opcode, and the state with that one byte consumed. -/
  | illegal (s : State)
  /-- No whole command: the engine waits. -/
  | waiting
  deriving DecidableEq, Repr

/-- The next command of the stream: the first starts at byte 0, each later one at the byte after the one before it
(R69); a refused command consumes all its bytes too (R68, R195). -/
def fetch (s : State) : Fetched :=
  match decode s.input with
  | .ok (i, rest) => .command i (s.withInput rest)
  | .error (.illegalOpcode _) => .illegal (s.withInput (s.input.drop 1))
  | .error .incomplete => .waiting

/-- The answer to an illegal opcode (R67): the status `ILLEGAL_COMMAND` and no state change. -/
def illegalCommand (s : State) : State := s.refuse .illegalCommand

/-- The command stream that holds just the command of an opcode-table word. -/
def State.presentTableWord (s : State) (nbits w : Nat) : State := s.withInput (tableWordBytes nbits w)

end Sys2Proof.Machine
end

