-- ==== Sys2Proof/Machine/Step.lean ====
section
/-! DEFINITION. One step: one command, or one illegal opcode, or waiting for the rest of a command (00_scope.md R13,
30_encoding.md R67 to R69). -/

namespace Sys2Proof.Machine

/-- One step. A whole command runs on the state with its bytes consumed. An illegal opcode is answered and skipped. While
the stream holds no whole command the engine executes nothing, emits nothing and keeps all its state (R69, R204, U10):
the step leaves the state as it is (log entry 5). -/
def step (s : State) : Host.Outcome State Fault Refusal :=
  match fetch s with
  | .command i t => exec i t
  | .illegal t => .next (illegalCommand t)
  | .waiting => .next s

/-- `s` with the command of an opcode-table word as its whole command stream: what the host presents next. -/
def State.withFetchWord (s : State) (nbits w : Nat) : State := s.presentTableWord nbits w

end Sys2Proof.Machine
end

