-- ==== Sys2Proof/Machine/Assembler.lean ====
section
/-! DEFINITION. The textual form of commands (30_encoding.md R72, R73): one line of text to a command, and lines to the
bytes of a command stream. A line is its list of characters. The assembler runs on the host's side; no step uses it. -/

namespace Sys2Proof.Machine

/-- Why a line does not assemble. -/
inductive AsmError where
  /-- The line begins with no mnemonic of R72. -/
  | unknownMnemonic
  /-- The operand is missing, is not of the form R72 gives, or stands where none belongs. -/
  | badOperand
  /-- A seed above 2^64 − 1 (R73). -/
  | seedTooLarge
  /-- A payload longer than 2^64 − 1 bytes (R73). -/
  | payloadTooLong
  deriving DecidableEq, Repr

/-- A blank inside a line. That a tab and a carriage return are blanks like the space, and that blanks may stand before
the mnemonic and in any number between it and the operand, is the model's choice: R72 says neither (log entry 9). -/
def isBlank (c : Char) : Bool := c = ' ' || c = '\t' || c = '\r'

/-- A line without the comment that a semicolon starts. A semicolon between double quotes is payload text (log entry
9); `quoted` says whether a quote is open. -/
def stripComment (quoted : Bool) : List Char → List Char
  | [] => []
  | c :: cs =>
    if c = ';' ∧ quoted = false then []
    else c :: stripComment (if c = '"' then !quoted else quoted) cs

/-- A line without blanks at its two ends. -/
def trimBlanks (cs : List Char) : List Char :=
  ((cs.dropWhile isBlank).reverse.dropWhile isBlank).reverse

/-- The value of a decimal digit. -/
def decimalDigit (c : Char) : Option Nat :=
  if '0'.toNat ≤ c.toNat ∧ c.toNat ≤ '9'.toNat then some (c.toNat - '0'.toNat) else none

/-- The value of a hexadecimal digit, in either case (the model's choice, log entry 9). -/
def hexDigit (c : Char) : Option Nat :=
  if 'A'.toNat ≤ c.toNat ∧ c.toNat ≤ 'F'.toNat then some (c.toNat - 'A'.toNat + 10)
  else if 'a'.toNat ≤ c.toNat ∧ c.toNat ≤ 'f'.toNat then some (c.toNat - 'a'.toNat + 10)
  else decimalDigit c

/-- The number that digits spell after the digits whose value is `acc`. -/
def digitsFrom (base : Nat) (digit : Char → Option Nat) (acc : Nat) : List Char → Option Nat
  | [] => some acc
  | c :: cs =>
    match digit c with
    | none => none
    | some d => digitsFrom base digit (base * acc + d) cs

/-- A decimal literal, or a hexadecimal one after `0x` (R6, R72). -/
def literal : List Char → Option Nat
  | [] => none
  | '0' :: 'x' :: c :: cs => digitsFrom 16 hexDigit 0 (c :: cs)
  | c :: cs => digitsFrom 10 decimalDigit 0 (c :: cs)

/-- The text of a `WRITE "<text>"` after its first quote: ASCII codes up to the closing quote, which ends the operand.
The text has no double quote and no backslash (R72). -/
def textBytes : List Char → Option (List Byte)
  | [] => none
  | ['"'] => some []
  | c :: cs =>
    if c = '"' ∨ c = '\\' ∨ 128 ≤ c.toNat then none
    else
      match textBytes cs with
      | none => none
      | some bs => some (BitVec.ofNat 8 c.toNat :: bs)

/-- The payload of a `WRITE x"<hex>"` after its first quote: pairs of hexadecimal digits, blanks between pairs ignored,
up to the closing quote, which ends the operand (R72). R72 says so of spaces between pairs only. That blanks are ignored
before the first pair and after the last one too, and that a tab or a carriage return is ignored like a space, is the
model's choice (DESIGN CHOICE, log entry 9). A blank inside a pair is an error. -/
def hexBytes : List Char → Option (List Byte)
  | [] => none
  | ['"'] => some []
  | [_] => none
  | c :: d :: cs =>
    if isBlank c then hexBytes (d :: cs)
    else
      match hexDigit c, hexDigit d, hexBytes cs with
      | some h, some l, some bs => some (BitVec.ofNat 8 (16 * h + l) :: bs)
      | _, _, _ => none

/-- The payload a `WRITE` operand denotes (R72). -/
def payloadOperand : List Char → Option (List Byte)
  | '"' :: cs => textBytes cs
  | 'x' :: '"' :: cs => hexBytes cs
  | _ => none

/-- The command of an `INIT` line with this operand; a seed that does not fit its field is refused (R73). -/
def assembleInit (operand : List Char) : Except AsmError (Option Instr) :=
  match literal operand with
  | none => .error .badOperand
  | some n => if n < 2 ^ 64 then .ok (some (.init (BitVec.ofNat 64 n))) else .error .seedTooLarge

/-- The command of a `WRITE` line with this operand; a payload that does not fit `LEN` is refused (R73). -/
def assembleWrite (operand : List Char) : Except AsmError (Option Instr) :=
  match payloadOperand operand with
  | none => .error .badOperand
  | some c => if c.length < 2 ^ 64 then .ok (some (.write c)) else .error .payloadTooLong

/-- The command of a line whose mnemonic takes no operand. -/
def assembleBare (i : Instr) (operand : List Char) : Except AsmError (Option Instr) :=
  if operand = [] then .ok (some i) else .error .badOperand

/-- The command a line stands for, if it holds one: a blank line and a line of comment hold none (R72). -/
def assembleLine (line : List Char) : Except AsmError (Option Instr) :=
  let text := trimBlanks (stripComment false line)
  let mnemonic := text.takeWhile (fun c => !isBlank c)
  let operand := trimBlanks (text.dropWhile (fun c => !isBlank c))
  if mnemonic = [] then .ok none
  else if mnemonic = ['I', 'N', 'I', 'T'] then assembleInit operand
  else if mnemonic = ['N', 'E', 'W'] then assembleBare .new operand
  else if mnemonic = ['W', 'R', 'I', 'T', 'E'] then assembleWrite operand
  else if mnemonic = ['F', 'I', 'N', 'I', 'S', 'H'] then assembleBare .finish operand
  else if mnemonic = ['F', 'I', 'N', 'I', 'S', 'H', '1', '2', '8'] then assembleBare .finish128 operand
  else .error .unknownMnemonic

/-- The bytes of the command stream that lines of text assemble to. -/
def assemble : List (List Char) → Except AsmError (List Byte)
  | [] => .ok []
  | line :: lines =>
    match assembleLine line with
    | .error e => .error e
    | .ok command =>
      match assemble lines with
      | .error e => .error e
      | .ok bytes =>
        match command with
        | none => .ok bytes
        | some i => .ok (encode i ++ bytes)

end Sys2Proof.Machine
end

