-- ==== Sys2Proof/Safety.lean ====
section
/-! DEFINITION. The terms claims use: the stream an accumulator stands for (10_state.md R30), agreement of two states on
all that can be observed (R31, 45_properties.md R171), the invariant of the machine, runs of commands and of steps, and the digest as
a function of seed and stream (R172). -/

namespace Sys2Proof.Machine

/-! ### The stream an accumulator stands for -/

/-- The word `INIT(seed)` puts in every lane and in `VSEED` on `M64` (R101). -/
def seedWord64 (seed : Word) : Word := (seed + 0x62992FC1) * 0xD6D018F5

/-- The lanes `INIT(seed)` writes (R101, R102). -/
def seedLanes (variant : Variant) (seed : Word) : Lanes :=
  match variant with
  | .m64 => ⟨seedWord64 seed, seedWord64 seed, seedWord64 seed, seedWord64 seed⟩
  | .m128 =>
    ⟨(seed - 0xC83A91E1) * 0x2F5870A5, (seed + 0x8648DBDB) * 0x7BDEC03B, (seed + 0xC83A91E1) * 0x7BDEC03B,
      (seed - 0x8648DBDB) * 0x2F5870A5⟩

/-- `MixBlock` of block `B_j = S[32j .. 32j+31]` of a byte sequence (R30). -/
def mixStreamBlock (variant : Variant) (S : List Byte) (l : Lanes) (j : Nat) : Lanes :=
  mixPayload (constants variant) S (32 * j) l

/-- Lanes after the first `q` blocks of a byte sequence, mixed in order into `l` (R30). -/
def mixStream (variant : Variant) (S : List Byte) (q : Nat) (l : Lanes) : Lanes :=
  (List.range q).foldl (mixStreamBlock variant S) l

/-- The lanes after the stream `S` under `seed` (R30 (b)). -/
def streamLanes (variant : Variant) (seed : Word) (S : List Byte) : Lanes :=
  mixStream variant S (S.length / 32) (seedLanes variant seed)

/-- The tail of the stream (R30 (d)): what follows its complete blocks. -/
def streamTail (S : List Byte) : List Byte := S.drop (32 * (S.length / 32))

/-- The state holds the accumulator of seed `seed` and stream `S` (R30 (a) to (d)). -/
structure State.Represents (s : State) (seed : Word) (S : List Byte) : Prop where
  total : s.total.toNat = S.length
  lanes : s.v = streamLanes s.variant seed S
  vseed : s.variant = .m64 → s.vseed = seedWord64 seed
  live : ∀ j, j < S.length % 32 → (streamTail S)[j]? = some (s.buf.read j)

/-- The invariant of the machine: `BUF` is in canonical form, and once `INITD` is 1 the accumulator is that of some seed
and stream (R29, R30). -/
def State.Inv (s : State) : Prop :=
  s.buf.wf = true ∧ (s.initd = true → ∃ seed S, s.Represents seed S)

/-! ### Agreement of two states -/

/-- Equal live cells `BUF[0 .. fill−1]`; the dead cells are unspecified (R29, R31, U2). -/
def sameLive (fill : Nat) (m m' : Memory) : Prop := ∀ j, j < fill → m.read j = m'.read j

/-- The same accumulator, as far as any command can tell (R171): lanes, `VSEED`, `TOTAL`, `INITD` and live cells. -/
structure State.SameAccumulator (s t : State) : Prop where
  variant : s.variant = t.variant
  v : s.v = t.v
  vseed : s.vseed = t.vseed
  total : s.total = t.total
  initd : s.initd = t.initd
  live : sameLive s.fill s.buf t.buf

/-! ### Runs of commands -/

/-- Commands executed one after another (R51), stopping at a fault or a refusal. -/
def runCommands : List Instr → State → Host.Outcome State Fault Refusal
  | [], s => .next s
  | i :: is, s =>
    match exec i s with
    | .next t => runCommands is t
    | .fault r => .fault r
    | .refused r => .refused r

/-- Steps taken one after another, stopping at a fault or a refusal. -/
def runSteps : Nat → State → Host.Outcome State Fault Refusal
  | 0, s => .next s
  | n + 1, s =>
    match step s with
    | .next t => runSteps n t
    | .fault r => .fault r
    | .refused r => .refused r

/-! ### The digest as a function of seed and stream -/

/-- A buffer that holds the tail of a stream, and zeros in its dead cells. -/
def tailMemory (S : List Byte) : Memory := putCells Memory.zeroed 0 (streamTail S)

/-- `Digest(seed, S)` on `M64` (R172), for streams within R172's bound `|S| <= 2^64 − 1`. The spec gives a longer stream no
digest (U5, D11). The definition is total, with the length taken modulo 2^64: what it gives beyond the bound is the
model's choice and stands for nothing (DESIGN CHOICE, log entry 19). -/
def digest64 (seed : Word) (S : List Byte) : Word :=
  (final64 (streamLanes .m64 seed S) (seedWord64 seed) (tailMemory S) (BitVec.ofNat 64 S.length)).v0

/-- `Digest(seed, S)` on `M128` (R172): the pair, for streams within R172's bound `|S| <= 2^64 − 1`. As for `digest64`, what
it gives a longer stream is the model's choice and stands for nothing (DESIGN CHOICE, log entry 19). -/
def digest128 (seed : Word) (S : List Byte) : Word × Word :=
  let w := final128 (streamLanes .m128 seed S) (tailMemory S) (BitVec.ofNat 64 S.length)
  (w.v0, w.v1)

/-- The digest words `FINISH` returns for a seed and a stream: on `M128` the first of the pair (R172). They
mean something within R172's bound only (log entry 19). -/
def finishWords (variant : Variant) (seed : Word) (S : List Byte) : List Word :=
  match variant with
  | .m64 => [digest64 seed S]
  | .m128 => [(digest128 seed S).1]

end Sys2Proof.Machine
end

