-- ==== Sys2Proof/Certificates/Slice0/Obligations.lean ====
section
/-! DEFINITION. The statements for the provers. Each docstring names the rules of spec/ it rests on. -/

open Sys2Proof Sys2Proof.Machine

/-! ### Reset -/

/-- After the reset event (70_reset_and_hazards.md, sections 1 and 2) `INITD` is 0 whatever the state before, the
variant is kept, and until an `INIT` the commands `WRITE`, `FINISH` and (on `M128`) `FINISH128` are answered
NOT_INITIALISED. That the event starts a new command stream and leaves the responses already emitted is the model's
choice (log entry 11). -/
def Obligations.ResetEventClearsInitd : Prop :=
  ∀ (s : State) (stream : List Byte) (payload : List Byte),
    (s.assertReset stream).initd = false ∧
    (s.assertReset stream).variant = s.variant ∧
    (s.assertReset stream).input = stream ∧
    (s.assertReset stream).output = s.output ∧
    exec (.write payload) (s.assertReset stream) =
      .next { s.assertReset stream with output := s.output ++ [0x02] } ∧
    exec .finish (s.assertReset stream) =
      .next { s.assertReset stream with output := s.output ++ [0x02] } ∧
    exec .finish128 (s.assertReset stream) =
      .next { s.assertReset stream with
        output := s.output ++ [if s.variant = .m64 then 0x03 else 0x02] }

/-- Power-on of either variant, and so `State.reset`, meets the invariant with `INITD` 0 (10_state.md, section 7).
That `State.reset` is an `M128` instance and that its buffer lists no cell are the model's choices (log entries 1 and
4). -/
def Obligations.InvariantHoldsAtReset : Prop :=
  (∀ variant, (State.powerOn variant).initd = false ∧ (State.powerOn variant).Inv) ∧
  State.reset = State.powerOn .m128

/-- What the registers hold before the first `INIT` reaches no response and no state after an `INIT`: two states with
`INITD = 0` that differ only there take steps that agree (10_state.md, section 7: "no command can read the value"). It
holds for every value there, so for the free values of log entry 2 and the buffer of log entry 4. -/
def Obligations.UninitialisedValuesAreUnobservable : Prop :=
  ∀ s t : State, s.initd = false → t.initd = false → s.variant = t.variant → s.input = t.input →
    s.output = t.output →
    ∃ s' t', step s = .next s' ∧ step t = .next t' ∧ s'.output = t'.output ∧ s'.input = t'.input ∧
      s'.initd = t'.initd ∧
      (s'.initd = true → s'.v = t'.v ∧ s'.total = t'.total ∧ s'.buf = t'.buf ∧
        (s'.variant = .m64 → s'.vseed = t'.vseed))

/-! ### INIT and NEW -/

/-- R101: `INIT` on `M64` puts `(seed + K2) * K0` in all four lanes and in `VSEED`; the rest is R100's fresh
accumulator. In every state, `INITD = 0` or 1 (R104). -/
def Obligations.InitOnM64 : Prop :=
  ∀ (seed : Word) (s : State), s.variant = .m64 →
    exec (.init seed) s = .next { s with
      v := ⟨(seed + 0x62992FC1) * 0xD6D018F5, (seed + 0x62992FC1) * 0xD6D018F5,
        (seed + 0x62992FC1) * 0xD6D018F5, (seed + 0x62992FC1) * 0xD6D018F5⟩
      vseed := (seed + 0x62992FC1) * 0xD6D018F5
      buf := Memory.zeroed
      total := 0
      initd := true
      output := s.output ++ [0x00] } ∧
    ∀ j, Memory.zeroed.read j = 0

/-- R102: `INIT` on `M128` puts four distinct expressions of the seed in the four lanes, and writes no `VSEED`. -/
def Obligations.InitOnM128 : Prop :=
  ∀ (seed : Word) (s : State), s.variant = .m128 →
    exec (.init seed) s = .next { s with
      v := ⟨(seed - 0xC83A91E1) * 0x2F5870A5, (seed + 0x8648DBDB) * 0x7BDEC03B,
        (seed + 0xC83A91E1) * 0x7BDEC03B, (seed - 0x8648DBDB) * 0x2F5870A5⟩
      buf := Memory.zeroed
      total := 0
      initd := true
      output := s.output ++ [0x00] } ∧
    ∀ j, Memory.zeroed.read j = 0

/-- R103: `NEW` is exactly `INIT 0`: the same bytes, the same effect; on `M64` all lanes and `VSEED` become
`0x52BC33FEDBE4CBB5`, on `M128` the lanes are those of R103's worked example. -/
def Obligations.NewIsInitZero : Prop :=
  encode .new = [0x01, 0, 0, 0, 0, 0, 0, 0, 0] ∧ encode .new = encode (.init 0) ∧
  ∀ s : State, exec .new s = exec (.init 0) s ∧
    (s.variant = .m64 → exec .new s = .next { s with
      v := ⟨0x52BC33FEDBE4CBB5, 0x52BC33FEDBE4CBB5, 0x52BC33FEDBE4CBB5, 0x52BC33FEDBE4CBB5⟩
      vseed := 0x52BC33FEDBE4CBB5
      buf := Memory.zeroed
      total := 0
      initd := true
      output := s.output ++ [0x00] }) ∧
    (s.variant = .m128 → exec .new s = .next { s with
      v := ⟨0xDAF812FADE1589FB, 0x40F9D9A67898EB79, 0x60E25D3BAF065EDB, 0xE72A3B80CA927BD9⟩
      buf := Memory.zeroed
      total := 0
      initd := true
      output := s.output ++ [0x00] })

/-- R105: the state after `INIT(seed)` is a function of `VARIANT` and `seed` alone, and two instances of one variant
given the same seed stay identical under identical later commands: whatever their states before, they give the same
responses byte for byte and hold the same accumulator. -/
def Obligations.InitForgetsTheOldAccumulator : Prop :=
  ∀ (seed : Word) (later : List Instr) (s t : State), s.variant = t.variant →
    ∃ (s' t' : State) (responses : List Byte),
      runCommands (.init seed :: later) s = .next s' ∧ runCommands (.init seed :: later) t = .next t' ∧
      s'.output = s.output ++ responses ∧ t'.output = t.output ++ responses ∧
      s'.v = t'.v ∧ s'.buf = t'.buf ∧ s'.total = t'.total ∧ s'.initd = t'.initd ∧
      (s.variant = .m64 → s'.vseed = t'.vseed)

/-! ### WRITE -/

/-- `WRITE` before `INIT` is refused with NOT_INITIALISED whatever its length, and changes nothing else
(60_exceptions.md, section 2). -/
def Obligations.WriteBeforeInitIsRefused : Prop :=
  ∀ (payload : List Byte) (s : State), s.initd = false →
    exec (.write payload) s = .next { s with output := s.output ++ [0x02] }

/-- R117: `TOTAL` never wraps. A `WRITE` that would carry it past 2^64 − 1 is refused with LENGTH_OVERFLOW before any
state changes; every other one adds its length exactly. -/
def Obligations.TotalNeverWraps : Prop :=
  ∀ (payload : List Byte) (s : State), s.initd = true →
    (2 ^ 64 - 1 < s.total.toNat + payload.length →
      exec (.write payload) s = .next { s with output := s.output ++ [0x04] }) ∧
    (s.total.toNat + payload.length ≤ 2 ^ 64 - 1 →
      ∃ t, exec (.write payload) s = .next t ∧ t.total.toNat = s.total.toNat + payload.length)

/-- `WRITE` completes on every initialised state and every payload that keeps `TOTAL` in range; it neither reads nor
writes `VSEED`, leaves `INITD`, and answers `00` (42_write.md, sections 1 and 3). -/
def Obligations.WriteCompletes : Prop :=
  ∀ (payload : List Byte) (s : State), s.initd = true → s.total.toNat + payload.length ≤ 2 ^ 64 - 1 →
    ∃ (lanes : Lanes) (m : Memory),
      exec (.write payload) s = .next { s with
        v := lanes
        buf := m
        total := s.total + BitVec.ofNat 64 payload.length
        output := s.output ++ [0x00] } ∧
      ∀ x : Word, exec (.write payload) { s with vseed := x } = .next { s with
        vseed := x
        v := lanes
        buf := m
        total := s.total + BitVec.ofNat 64 payload.length
        output := s.output ++ [0x00] }

/-- R115: an empty `WRITE` changes no state and is answered `00`; before `INIT` it is refused like any other. -/
def Obligations.EmptyWriteChangesNothing : Prop :=
  ∀ s : State,
    (s.initd = true → exec (.write []) s = .next { s with output := s.output ++ [0x00] }) ∧
    (s.initd = false → exec (.write []) s = .next { s with output := s.output ++ [0x02] })

/-- Cases (a) and (e) of 42_write.md, section 3, which the spec marks as its own inference from the algorithm ("the
payload goes into `BUF[r .. r+n−1]`, `TOTAL` grows by `n`, no lane changes"): a payload that does not complete a block
goes into the buffer, no lane changes, and every other cell is as before (that the dead cells are kept as the
algorithm leaves them is log entry 8). -/
def Obligations.WriteBuffersShortPayload : Prop :=
  ∀ (payload : List Byte) (s : State), s.initd = true → s.buf.wf = true →
    s.total.toNat + payload.length ≤ 2 ^ 64 - 1 → s.total.toNat % 32 + payload.length < 32 →
    ∃ m : Memory,
      exec (.write payload) s = .next { s with
        buf := m
        total := s.total + BitVec.ofNat 64 payload.length
        output := s.output ++ [0x00] } ∧
      (∀ j, j < payload.length → payload[j]? = some (m.read (s.total.toNat % 32 + j))) ∧
      (∀ a, a < s.total.toNat % 32 ∨ s.total.toNat % 32 + payload.length ≤ a → m.read a = s.buf.read a)

/-- Cases (b) and (c) of 42_write.md, section 3 (the spec's own inference, "one `MixBlock` from `BUF`"): with `r`
bytes buffered, the first `32 − r` bytes complete the buffered block, which is mixed first; the whole blocks that
follow are mixed straight from the payload, in order; the bytes left over go to `BUF[0 ..]`, over a buffer that holds
the block just completed (log entry 8 for the dead cells). -/
def Obligations.WriteCompletesBufferedBlock : Prop :=
  ∀ (payload : List Byte) (s : State), s.initd = true → s.buf.wf = true →
    s.total.toNat + payload.length ≤ 2 ^ 64 - 1 → s.total.toNat % 32 ≠ 0 →
    32 ≤ s.total.toNat % 32 + payload.length →
    ∃ m : Memory,
      exec (.write payload) s = .next { s with
        v := mixStream s.variant (payload.drop (32 - s.total.toNat % 32))
          ((payload.length - (32 - s.total.toNat % 32)) / 32)
          (mixPayload (constants s.variant)
            (memBytes s.buf 0 (s.total.toNat % 32) ++ payload.take (32 - s.total.toNat % 32)) 0 s.v)
        buf := m
        total := s.total + BitVec.ofNat 64 payload.length
        output := s.output ++ [0x00] } ∧
      (∀ j, j < (s.total.toNat % 32 + payload.length) % 32 →
        (streamTail (payload.drop (32 - s.total.toNat % 32)))[j]? = some (m.read j)) ∧
      (∀ a, (s.total.toNat % 32 + payload.length) % 32 ≤ a → a < 32 →
        m.read a = if a < s.total.toNat % 32 then s.buf.read a else payload.getD (a - s.total.toNat % 32) 0)

/-- Case (d) of 42_write.md, section 3 (the spec's own inference, "`(n div 32)` blocks are mixed straight from the
payload"): on a block boundary the whole blocks are mixed straight from the payload, in order, and the last `n mod 32`
bytes go to `BUF[0 ..]`; every other cell is as before (log entry 8 for the dead cells). -/
def Obligations.WriteMixesAlignedBlocks : Prop :=
  ∀ (payload : List Byte) (s : State), s.initd = true → s.buf.wf = true →
    s.total.toNat + payload.length ≤ 2 ^ 64 - 1 → s.total.toNat % 32 = 0 → 32 ≤ payload.length →
    ∃ m : Memory,
      exec (.write payload) s = .next { s with
        v := mixStream s.variant payload (payload.length / 32) s.v
        buf := m
        total := s.total + BitVec.ofNat 64 payload.length
        output := s.output ++ [0x00] } ∧
      (∀ j, j < payload.length % 32 → payload[32 * (payload.length / 32) + j]? = some (m.read j)) ∧
      (∀ a, payload.length % 32 ≤ a → m.read a = s.buf.read a)

/-- The two calls of `bounded_copy` always satisfy its contract, for every state and every payload (42_write.md,
section 3, the spec's own inference: "the 'contract violation, undefined by design' of `bounded_copy` is
unreachable"). -/
def Obligations.WriteCopiesStayInContract : Prop :=
  ∀ (payload : List Byte) (s : State), ∃ t, absorb payload s = some t

/-- `bounded_copy` (40_primitives.md, section 2) inside its contract copies exactly `n` bytes and leaves every other cell
unchanged. Outside the contract (`n >= 32`, or a range that leaves the payload or the buffer) the spec calls the case
"undefined by design" (93_implementation_defined.md U1), and lets a model define the primitive on more counts or not;
that it then has no result is the model's choice (log entry 14). -/
def Obligations.BoundedCopyMovesExactlyItsBytes : Prop :=
  ∀ (payload : List Byte) (src dst n : Nat) (m : Memory), m.wf = true →
    (n < 32 → src + n ≤ payload.length → dst + n ≤ 32 →
      ∃ m', boundedCopy payload src dst n m = some m' ∧
        (∀ j, j < n → payload[src + j]? = some (m'.read (dst + j))) ∧
        (∀ a, a < dst ∨ dst + n ≤ a → m'.read a = m.read a)) ∧
    (32 ≤ n ∨ payload.length < src + n ∨ 32 < dst + n → boundedCopy payload src dst n m = none)

/-- R112, R120: `MixBlock` takes the four little-endian words of a 32-byte block at offsets 0, 8, 16 and 24; its four
updates run in order, lanes 2 and 3 fed from the new lanes 0 and 1; the procedure is the same for both variants, each
with its own constants. -/
def Obligations.MixBlockFeedsForwardInOrder : Prop :=
  (∀ (k : Constants) (a b c d x0 x1 x2 x3 : Word),
    mixBlock k ⟨a, b, c, d⟩ x0 x1 x2 x3 =
      ⟨rotr (a + x0 * k.k0) 29 + c,
        rotr (b + x1 * k.k1) 29 + d,
        rotr (c + x2 * k.k2) 29 + (rotr (a + x0 * k.k0) 29 + c),
        rotr (d + x3 * k.k3) 29 + (rotr (b + x1 * k.k1) 29 + d)⟩) ∧
  (∀ (variant : Variant) (payload : List Byte) (m : Memory) (p : Nat) (l : Lanes),
    mixPayload (constants variant) payload p l =
      mixBlock (constants variant) l (leWord ((payload.drop p).take 8)) (leWord ((payload.drop (p + 8)).take 8))
        (leWord ((payload.drop (p + 16)).take 8)) (leWord ((payload.drop (p + 24)).take 8)) ∧
    mixMemory (constants variant) m l =
      mixBlock (constants variant) l (leWord (memBytes m 0 8)) (leWord (memBytes m 8 8))
        (leWord (memBytes m 16 8)) (leWord (memBytes m 24 8))) ∧
  constants .m64 = ⟨0xD6D018F5, 0xA2AA033B, 0x62992FC1, 0x30BC5B29⟩ ∧
  constants .m128 = ⟨0xC83A91E1, 0x8648DBDB, 0x7BDEC03B, 0x2F5870A5⟩

/-- `WRITE(c)` has the same effect on lanes, `VSEED`, `TOTAL`, `INITD` and live cells as feeding its bytes one by one
to `PutByte` (42_write.md, section 3, the byte-at-a-time form, which the spec marks as its own inference: "Live cells,
lanes and `TOTAL` agree exactly"). -/
def Obligations.WriteIsByteAtATime : Prop :=
  ∀ (payload : List Byte) (s : State), s.initd = true → s.buf.wf = true →
    s.total.toNat + payload.length ≤ 2 ^ 64 - 1 →
    ∃ t, exec (.write payload) s = .next t ∧ t.SameAccumulator (putBytes payload s)

/-- Chunking invariance (45_properties.md, which the spec marks as its own inference: "leaves the same lanes, the same
`VSEED`, the same `TOTAL` and the same live cells of `BUF`"): `WRITE a` then `WRITE b` leaves the same accumulator as
`WRITE (a ‖ b)`, and every later sequence of commands gives the same responses byte for byte. -/
def Obligations.ChunkingInvariance : Prop :=
  ∀ (a b : List Byte) (s : State), s.initd = true → s.buf.wf = true →
    s.total.toNat + (a.length + b.length) ≤ 2 ^ 64 - 1 →
    ∃ t u w, exec (.write a) s = .next t ∧ exec (.write b) t = .next u ∧
      exec (.write (a ++ b)) s = .next w ∧ u.SameAccumulator w ∧
      ∀ later : List Instr, ∃ (u' w' : State) (responses : List Byte),
        runCommands later u = .next u' ∧ runCommands later w = .next w' ∧
        u'.output = u.output ++ responses ∧ w'.output = w.output ++ responses ∧ u'.SameAccumulator w'

/-- A `WRITE` extends the stream the accumulator stands for by its payload (10_state.md, section 2, the state as a
function of the stream, which the spec marks as its own inference: "`BUF[j] = S[32q + j]`"). -/
def Obligations.WriteExtendsTheStream : Prop :=
  ∀ (payload : List Byte) (s : State) (seed : Word) (S : List Byte), s.initd = true → s.buf.wf = true →
    s.Represents seed S → S.length + payload.length ≤ 2 ^ 64 - 1 →
    ∃ t, exec (.write payload) s = .next t ∧ t.buf.wf = true ∧ t.Represents seed (S ++ payload)

/-! ### FINISH and FINISH128 -/

/-- R161: `FINISH128` on `M64` is refused with WRONG_VARIANT whatever `INITD` is, and changes nothing; otherwise
finalisation before `INIT` is refused with NOT_INITIALISED. -/
def Obligations.FinishRefusals : Prop :=
  ∀ s : State,
    (s.initd = false → exec .finish s = .next { s with output := s.output ++ [0x02] }) ∧
    (s.variant = .m128 → s.initd = false →
      exec .finish128 s = .next { s with output := s.output ++ [0x02] }) ∧
    (s.variant = .m64 → exec .finish128 s = .next { s with output := s.output ++ [0x03] })

/-- R130, R140: `FINISH` on `M64` answers `00` and the digest word, least significant byte first, or before `INIT` the
refusal `02`; it writes no state. The formulas of the digest's steps are those of `FinalisationStepsOfM64`, and
`TailStepsAreTheBitsOfTheTailLength` says which tail steps run. -/
def Obligations.FinishOnM64 : Prop :=
  ∀ s : State, s.variant = .m64 →
    (s.initd = true → exec .finish s = .next { s with
      output := s.output ++ 0x00 :: wordBytes
        (aval64 (tails64 s.buf (s.total.toNat % 32)
          { w := if 32 ≤ s.total.toNat then fold64 s.vseed (bulkFin64 s.v) else s.v, ptr := 0 }).w).v0 }) ∧
    (s.initd = false → exec .finish s = .next { s with output := s.output ++ [0x02] })

/-- R150, R159, R160: on `M128` `FINISH128` answers `00` and the pair, first word first, and `FINISH` answers `00` and
the first word of that pair, or before `INIT` both answer the refusal `02`; on `M64` `FINISH128` answers the refusal
`03`. None writes any state. -/
def Obligations.FinishOnM128 : Prop :=
  ∀ s : State,
    (s.variant = .m128 → s.initd = true →
      ∃ w : Lanes,
        w = aval128 (tails128 s.buf (s.total.toNat % 32)
          { w := if 32 ≤ s.total.toNat then bulkFin128 s.v else s.v, ptr := 0 }).w ∧
        exec .finish128 s = .next { s with output := s.output ++ 0x00 :: (wordBytes w.v0 ++ wordBytes w.v1) } ∧
        exec .finish s = .next { s with output := s.output ++ 0x00 :: wordBytes w.v0 }) ∧
    (s.variant = .m128 → s.initd = false →
      exec .finish128 s = .next { s with output := s.output ++ [0x02] } ∧
      exec .finish s = .next { s with output := s.output ++ [0x02] }) ∧
    (s.variant = .m64 → exec .finish128 s = .next { s with output := s.output ++ [0x03] })

/-- The formulas of R131, R132, R134 to R139, written out with the `M64` constants of R88. -/
def Obligations.FinalisationStepsOfM64 : Prop :=
  ∀ (a b c d vseed : Word) (m : Memory) (p width amount : Nat),
    (bulkFin64 ⟨a, b, c, d⟩ =
      let c' := c ^^^ (rotr ((a + d) * 0xD6D018F5 + b) 37 * 0xA2AA033B)
      let d' := d ^^^ (rotr ((b + c') * 0xA2AA033B + a) 37 * 0xD6D018F5)
      ⟨a ^^^ (rotr ((a + c') * 0xD6D018F5 + d') 37 * 0xA2AA033B),
        b ^^^ (rotr ((b + d') * 0xA2AA033B + c') 37 * 0xD6D018F5), c', d'⟩) ∧
    (fold64 vseed ⟨a, b, c, d⟩ = ⟨vseed + (a ^^^ b), b, c, d⟩) ∧
    (tail16_64 m { w := ⟨a, b, c, d⟩, ptr := p } =
      let b1 := rotr (a + memRead m p 8 * 0x62992FC1) 29 * 0x30BC5B29
      let c1 := rotr (a + memRead m (p + 8) 8 * 0x62992FC1) 29 * 0x30BC5B29
      let b2 := b1 ^^^ (rotr (b1 * 0xD6D018F5) 21 + c1)
      let c2 := c1 ^^^ (rotr (c1 * 0x30BC5B29) 21 + b2)
      { w := ⟨a + c2, b2, c2, d⟩, ptr := p + 16 }) ∧
    (absorb64 width amount m { w := ⟨a, b, c, d⟩, ptr := p } =
      let a1 := a + memRead m p width * 0x30BC5B29
      { w := ⟨a1 ^^^ (rotr a1 amount * 0xA2AA033B), b, c, d⟩, ptr := p + width }) ∧
    (tail8_64 m = absorb64 8 55 m ∧ tail4_64 m = absorb64 4 26 m ∧ tail2_64 m = absorb64 2 48 m ∧
      tail1_64 m = absorb64 1 37 m) ∧
    (aval64 ⟨a, b, c, d⟩ =
      let a1 := (a ^^^ rotr a 28) * 0xD6D018F5
      ⟨a1 ^^^ rotr a1 29, b, c, d⟩)

/-- The formulas of R151, R153 to R158, written out with the `M128` constants of R88. -/
def Obligations.FinalisationStepsOfM128 : Prop :=
  ∀ (a b c d : Word) (m : Memory) (p : Nat),
    (bulkFin128 ⟨a, b, c, d⟩ =
      let c' := c ^^^ (rotr ((a + d) * 0xC83A91E1 + b) 21 * 0x8648DBDB)
      let d' := d ^^^ (rotr ((b + c') * 0x8648DBDB + a) 21 * 0xC83A91E1)
      ⟨a ^^^ (rotr ((a + c') * 0xC83A91E1 + d') 21 * 0x8648DBDB),
        b ^^^ (rotr ((b + d') * 0x8648DBDB + c') 21 * 0xC83A91E1), c', d'⟩) ∧
    (tail16_128 m { w := ⟨a, b, c, d⟩, ptr := p } =
      let a1 := rotr (a + memRead m p 8 * 0x7BDEC03B) 33 * 0x2F5870A5
      let b1 := rotr (b + memRead m (p + 8) 8 * 0x7BDEC03B) 33 * 0x2F5870A5
      let a2 := a1 ^^^ (rotr (a1 * 0x7BDEC03B + b1) 45 * 0x8648DBDB)
      { w := ⟨a2, b1 ^^^ (rotr (b1 * 0x2F5870A5 + a2) 45 * 0xC83A91E1), c, d⟩, ptr := p + 16 }) ∧
    (tail8_128 m { w := ⟨a, b, c, d⟩, ptr := p } =
      let a1 := rotr (a + memRead m p 8 * 0x7BDEC03B) 33 * 0x2F5870A5
      { w := ⟨a1 ^^^ (rotr (a1 * 0x7BDEC03B + b) 27 * 0x8648DBDB), b, c, d⟩, ptr := p + 8 }) ∧
    (tail4_128 m { w := ⟨a, b, c, d⟩, ptr := p } =
      let b1 := rotr (b + memRead m p 4 * 0x7BDEC03B) 33 * 0x2F5870A5
      { w := ⟨a, b1 ^^^ (rotr (b1 * 0x2F5870A5 + a) 46 * 0xC83A91E1), c, d⟩, ptr := p + 4 }) ∧
    (tail2_128 m { w := ⟨a, b, c, d⟩, ptr := p } =
      let a1 := rotr (a + memRead m p 2 * 0x7BDEC03B) 33 * 0x2F5870A5
      { w := ⟨a1 ^^^ (rotr (a1 * 0x7BDEC03B + b) 22 * 0x8648DBDB), b, c, d⟩, ptr := p + 2 }) ∧
    (tail1_128 m { w := ⟨a, b, c, d⟩, ptr := p } =
      let b1 := rotr (b + memRead m p 1 * 0x7BDEC03B) 33 * 0x2F5870A5
      { w := ⟨a, b1 ^^^ (rotr (b1 * 0x2F5870A5 + a) 58 * 0xC83A91E1), c, d⟩, ptr := p + 1 }) ∧
    (aval128 ⟨a, b, c, d⟩ =
      let a1 := a + rotr (a * 0xC83A91E1 + b) 13
      let b1 := b + rotr (b * 0x8648DBDB + a1) 37
      let a2 := a1 + rotr (a1 * 0x7BDEC03B + b1) 13
      ⟨a2, b1 + rotr (b1 * 0x2F5870A5 + a2) 37, c, d⟩)

/-- Which tail steps run, and where they read (43_finish64.md, section 5, which the spec marks as its own inference:
"the steps that run are those of the binary digits of `end = TOTAL mod 32`"): the tail steps that run are those of the
binary digits of the tail length, each reads at the offset made of the higher digits, and the cursor ends at the
tail's end. The same on `M128`. -/
def Obligations.TailStepsAreTheBitsOfTheTailLength : Prop :=
  ∀ (m : Memory) (tailEnd : Nat) (w : Lanes), tailEnd < 32 →
    (tails64 m tailEnd { w := w, ptr := 0 } =
      let w16 := if tailEnd.testBit 4 then (tail16_64 m { w := w, ptr := 0 }).w else w
      let w8 := if tailEnd.testBit 3 then (tail8_64 m { w := w16, ptr := tailEnd &&& 16 }).w else w16
      let w4 := if tailEnd.testBit 2 then (tail4_64 m { w := w8, ptr := tailEnd &&& 24 }).w else w8
      let w2 := if tailEnd.testBit 1 then (tail2_64 m { w := w4, ptr := tailEnd &&& 28 }).w else w4
      let w1 := if tailEnd.testBit 0 then (tail1_64 m { w := w2, ptr := tailEnd &&& 30 }).w else w2
      { w := w1, ptr := tailEnd }) ∧
    (tails128 m tailEnd { w := w, ptr := 0 } =
      let w16 := if tailEnd.testBit 4 then (tail16_128 m { w := w, ptr := 0 }).w else w
      let w8 := if tailEnd.testBit 3 then (tail8_128 m { w := w16, ptr := tailEnd &&& 16 }).w else w16
      let w4 := if tailEnd.testBit 2 then (tail4_128 m { w := w8, ptr := tailEnd &&& 24 }).w else w8
      let w2 := if tailEnd.testBit 1 then (tail2_128 m { w := w4, ptr := tailEnd &&& 28 }).w else w4
      let w1 := if tailEnd.testBit 0 then (tail1_128 m { w := w2, ptr := tailEnd &&& 30 }).w else w2
      { w := w1, ptr := tailEnd })

/-- "Finalisation never reads a dead cell of `BUF`" (43_finish64.md, section 5, an inference the spec marks as its
own): states that agree on all but the dead cells have the same digests, on both variants. -/
def Obligations.FinalisationReadsLiveCellsOnly : Prop :=
  ∀ s t : State, s.SameAccumulator t →
    s.finishDigest = t.finishDigest ∧ s.finish128Digest = t.finish128Digest

/-- "Which copied values matter" (43_finish64.md and 44_finish128.md, section 5, inferences the spec marks as its
own): with `TOTAL < 32` the digest depends only on `v[0]` and the tail on `M64`, and only on `v[0]`, `v[1]` and the
tail on `M128`. -/
def Obligations.ShortStreamsIgnoreTheOtherLanes : Prop :=
  ∀ (v v' : Lanes) (vseed vseed' total : Word) (m m' : Memory), total.toNat < 32 →
    sameLive (total.toNat % 32) m m' → v.v0 = v'.v0 →
    (final64 v vseed m total).v0 = (final64 v' vseed' m' total).v0 ∧
    (v.v1 = v'.v1 →
      (final128 v m total).v0 = (final128 v' m' total).v0 ∧
      (final128 v m total).v1 = (final128 v' m' total).v1)

/-- The empty input (45_properties.md, which the spec marks as its own inference: "the digest is the avalanche of the
initial lanes"): whether `WRITE` was never called or called with an empty payload, the digest is determined by the
seed alone; with the spec's values for seeds 0 and 1. -/
def Obligations.EmptyStreamDigest : Prop :=
  (∀ (seed : Word) (s : State),
    ∃ t u, exec (.init seed) s = .next t ∧ exec (.write []) t = .next u ∧
      t.finishDigest = u.finishDigest ∧ t.finish128Digest = u.finish128Digest ∧
      (s.variant = .m64 →
        let a := (seed + 0x62992FC1) * 0xD6D018F5
        let a1 := (a ^^^ rotr a 28) * 0xD6D018F5
        t.finishDigest = [a1 ^^^ rotr a1 29]) ∧
      (s.variant = .m128 →
        let a := (seed - 0xC83A91E1) * 0x2F5870A5
        let b := (seed + 0x8648DBDB) * 0x7BDEC03B
        let a1 := a + rotr (a * 0xC83A91E1 + b) 13
        let b1 := b + rotr (b * 0x8648DBDB + a1) 37
        let a2 := a1 + rotr (a1 * 0x7BDEC03B + b1) 13
        t.finishDigest = [a2] ∧ t.finish128Digest = [a2, b1 + rotr (b1 * 0x2F5870A5 + a2) 37])) ∧
  digest64 0 [] = 0x705FB008071E967D ∧ digest64 1 [] = 0xE6F660FE36B85A05 ∧
  digest128 0 [] = (0x0005F3CA3D41D1CB, 0x4606B14684C65FB6) ∧
  digest128 1 [] = (0x7D036B44FBEDE600, 0xF9A908797EEF8401)

/-- Idempotent finalisation (45_properties.md, which the spec marks as its own inference: "any number of them in a row
return the same digest"): in every state, whatever sequence of `FINISH` and `FINISH128` is issued, every `FINISH` in
it gives one and the same response and so does every `FINISH128`, and no state but the response stream changes. -/
def Obligations.FinalisationIsIdempotent : Prop :=
  ∀ s : State, ∃ r q : List Byte, ∀ sequence : List Instr, (∀ i ∈ sequence, i = .finish ∨ i = .finish128) →
    runCommands sequence s = .next { s with
      output := s.output ++ sequence.flatMap fun i => if i = .finish then r else q }

/-- Finalisation does not end the stream (45_properties.md, which the spec marks as its own inference: "a `WRITE`
after a `FINISH` continues the same stream"): `INIT s`, `WRITE a`, `FINISH`, `WRITE b`, `FINISH` answers `Digest(s,
a)` and then `Digest(s, a ‖ b)`. -/
def Obligations.FinishDoesNotEndTheStream : Prop :=
  ∀ (seed : Word) (a b : List Byte) (s : State), a.length + b.length ≤ 2 ^ 64 - 1 →
    ∃ t, runCommands [.init seed, .write a, .finish, .write b, .finish] s = .next t ∧
      t.output = s.output ++
        (0x00 :: 0x00 :: 0x00 :: (finishWords s.variant seed a).flatMap wordBytes ++
          0x00 :: 0x00 :: (finishWords s.variant seed (a ++ b)).flatMap wordBytes)

/-- The digest as a function (45_properties.md, which the spec marks as its own inference: "For each variant there is
a function `Digest(seed, S)`"): `INIT seed`, any `WRITE`s, then `FINISH` (or `FINISH128`) returns `Digest(seed, S)`,
where `S` is the payloads joined: the digest is a function of seed and stream, whatever the cuts and whatever the
state before. -/
def Obligations.DigestIsAFunctionOfSeedAndStream : Prop :=
  ∀ (seed : Word) (chunks : List (List Byte)) (s : State), chunks.flatten.length ≤ 2 ^ 64 - 1 →
    ∃ t, runCommands (.init seed :: chunks.map .write) s = .next t ∧
      t.initd = true ∧ t.variant = s.variant ∧ t.Represents seed chunks.flatten ∧
      exec .finish t = .next { t with
        output := t.output ++ 0x00 :: (finishWords s.variant seed chunks.flatten).flatMap wordBytes } ∧
      (s.variant = .m128 → exec .finish128 t = .next { t with
        output := t.output ++ 0x00 ::
          (wordBytes (digest128 seed chunks.flatten).1 ++ wordBytes (digest128 seed chunks.flatten).2) })

/-! ### All commands -/

/-- Every command, in every state, ends in a next state. Of an accepted command this is the spec's "the API is total"
(60_exceptions.md, section 1), which it says of an initialised instance of the right variant whose `TOTAL` does not pass
2^64 − 1. That a refused command ends in a next state too, the one of 60_exceptions.md, section 2, is the model's choice
among the two treatments the spec allows (log entry 12). -/
def Obligations.EveryCommandEndsInANextState : Prop :=
  ∀ (i : Instr) (s : State), ∃ t, exec i s = .next t

/-- Responses (30_encoding.md, section 7; 60_exceptions.md, section 2): each command emits exactly one response: a
status byte 0 to 4, and digest bytes only when the status is OK and the command returns a digest; a refused command
changes nothing else. The variant, the stream presented and the reset count are never touched. -/
def Obligations.OneResponsePerCommand : Prop :=
  ∀ (i : Instr) (s t : State), exec i s = .next t →
    t.variant = s.variant ∧ t.input = s.input ∧ t.resets = s.resets ∧
    ∃ (status : Byte) (digest : List Byte), t.output = s.output ++ status :: digest ∧ status.toNat ≤ 4 ∧
      (status ≠ 0 → digest = [] ∧ t = { s with output := s.output ++ [status] }) ∧
      (status = 0 → digest.length =
        if i = .finish then 8 else if i = .finish128 then 16 else 0)

/-- `INITD` is set by `INIT` (and `NEW`) and by no other command, and no command clears it (10_state.md, section 1.3).
-/
def Obligations.OnlyInitSetsInitd : Prop :=
  ∀ (i : Instr) (s t : State), exec i s = .next t →
    (t.initd = true ↔ s.initd = true ∨ ∃ seed, i.core = .init seed)

/-- Which command writes what (10_state.md, sections 1.2 and 4): `FINISH` and `FINISH128` write no state, `WRITE`
writes only lanes, `BUF` and `TOTAL`, and no command but `INIT` (and `NEW`) decreases `TOTAL`. -/
def Obligations.AccessByCommand : Prop :=
  ∀ (i : Instr) (s t : State), exec i s = .next t →
    ((i = .finish ∨ i = .finish128) → t = { s with output := t.output }) ∧
    ((∃ payload, i = .write payload) →
      t = { s with v := t.v, buf := t.buf, total := t.total, output := t.output }) ∧
    ((∀ seed, i.core ≠ .init seed) → s.total.toNat ≤ t.total.toNat)

/-- On `M128` there is no `VSEED` (10_state.md, section 1.2): no command reads or writes the model's field, which is
the model's own there (log entry 6). -/
def Obligations.NoSeedLaneOnM128 : Prop :=
  ∀ (i : Instr) (s t : State) (x : Word), s.variant = .m128 → exec i s = .next t →
    t.vseed = s.vseed ∧ exec i { s with vseed := x } = .next { t with vseed := x }

/-- Every step keeps the invariant (10_state.md, section 2, "The state as a function of the stream", which the spec
marks as its own inference): the buffer's canonical form, and an accumulator that is the one of some seed and stream.
-/
def Obligations.EveryStepKeepsTheInvariant : Prop :=
  ∀ s t : State, s.Inv → step s = .next t → t.Inv

/-! ### Encoding and the command stream -/

/-- Decode and encode agree (30_encoding.md, sections 2 to 6): every well-formed command, with every operand, is read
back from its bytes, whatever follows them; `NEW` is read back as `INIT 0`, whose bytes it has. -/
def Obligations.DecodeOfEncode : Prop :=
  ∀ (i : Instr) (rest : List Byte), i.WellFormed → decode (encode i ++ rest) = .ok (i.core, rest)

/-- The other direction: what the decoder reads is a well-formed core command, and the bytes it read are exactly that
command's encoding: each command has one encoding, with no reserved bit inside it (30_encoding.md, section 5). -/
def Obligations.EncodeOfDecode : Prop :=
  ∀ (bytes rest : List Byte) (i : Instr), decode bytes = .ok (i, rest) →
    i.WellFormed ∧ i.core = i ∧ bytes = encode i ++ rest

/-- Sample commands of 30_encoding.md, section 9, written out byte by byte, decode to the commands they stand for. -/
def Obligations.SampleWordsDecode : Prop :=
  decode [0x01, 0xEF, 0xCD, 0xAB, 0x89, 0x67, 0x45, 0x23, 0x01] = .ok (.init 0x0123456789ABCDEF, []) ∧
  decode [0x02, 0x02, 0, 0, 0, 0, 0, 0, 0, 0x61, 0x62] = .ok (.write [0x61, 0x62], []) ∧
  decode [0x03] = .ok (.finish, []) ∧
  decode [0x04] = .ok (.finish128, [])

/-- A step runs the decoded command: when the bytes at the front of the command stream decode to `i`, with `rest`
after them, `i` is well-formed and the step is `exec` of `i` on the state with those bytes consumed. -/
def Obligations.StepRunsTheDecodedCommand : Prop :=
  ∀ (s : State) (i : Instr) (rest : List Byte), decode s.input = .ok (i, rest) →
    i.WellFormed ∧ step s = exec i { s with input := rest }

/-- An illegal opcode (30_encoding.md, section 5) is a command of length 1: one byte is consumed, the answer is
ILLEGAL_COMMAND, and no state changes. -/
def Obligations.IllegalOpcodeIsAnsweredAndSkipped : Prop :=
  ∀ (s : State) (op : Byte) (rest : List Byte), (op = 0x00 ∨ 0x05 ≤ op.toNat) → s.input = op :: rest →
    step s = .next { s with input := rest, output := s.output ++ [0x01] }

/-- R68: a step consumes exactly the command's length, told from its first byte and, for `WRITE`, from the following
eight, whatever the variant and whether the command is accepted or refused; and it answers. -/
def Obligations.StepConsumesTheCommandLength : Prop :=
  ∀ (s : State) (op : Byte) (rest : List Byte), s.input = op :: rest →
    let length := if op = 0x01 then 9 else if op = 0x02 then 9 + (leWord (rest.take 8)).toNat else 1
    length ≤ s.input.length → ∃ t, step s = .next t ∧ t.input = s.input.drop length ∧
      s.output.length < t.output.length

/-- Where the stream is empty or ends in the middle of a command the engine executes nothing, emits nothing and keeps
all its state (30_encoding.md, section 6; 93_implementation_defined.md U10 calls it stuck until more bytes arrive).
That the step then answers the same state is the model's reading (log entry 5). -/
def Obligations.IncompleteCommandWaits : Prop :=
  ∀ s : State, (s.input = [] → step s = .next s) ∧
    ∀ (op : Byte) (rest : List Byte), s.input = op :: rest →
      ((op = 0x01 ∧ rest.length < 8) ∨ (op = 0x02 ∧ rest.length < 8 + (leWord (rest.take 8)).toNat) →
        step s = .next s)

/-- The commands of a stream run one after another (30_encoding.md, section 6) in stream order, one step each: from a
stream that holds the bytes of a list of well-formed commands, as many steps as there are commands do what the
commands do in that order, and leave the bytes after them unread. -/
def Obligations.CommandStreamRunsInOrder : Prop :=
  ∀ (commands : List Instr) (rest : List Byte) (s : State), (∀ i ∈ commands, i.WellFormed) →
    runSteps commands.length { s with input := commands.flatMap encode ++ rest } =
      runCommands commands { s with input := rest }

/-- Bytes presented later change nothing in the command before them (20_memory.md, section 6): a step that consumes
bytes does the same when more bytes stand behind them. -/
def Obligations.PresentingBytesLaterChangesNothingEarlier : Prop :=
  ∀ (s t : State) (bytes : List Byte), step s = .next t → t.input ≠ s.input →
    step (s.present bytes) = .next (t.present bytes)

/-! ### Primitives -/

/-- R84: bit `i` of `rotr(x, r)` is bit `(i + r) mod 64` of `x`. -/
def Obligations.RotateRightMovesBits : Prop :=
  ∀ (x : Word) (r i : Nat), 1 ≤ r → r ≤ 63 → i < 64 →
    (rotr x r).getLsbD i = x.getLsbD ((i + r) % 64)

/-- Byte order (20_memory.md, section 2; 30_encoding.md, section 3): a word's 8 bytes, least significant first,
assemble to the word, and 8 bytes are the bytes of the word they assemble to. -/
def Obligations.WordAndBytesAgree : Prop :=
  (∀ w : Word, leWord (wordBytes w) = w) ∧
  (∀ bs : List Byte, bs.length = 8 → wordBytes (leWord bs) = bs)

/-- "A mixed-width view is consistent with little-endian storage" (20_memory.md, section 2, an inference the spec
marks as its own): a read of `n` bytes is zero-extended, and is the low `8*n` bits of a wider read at the same offset.
-/
def Obligations.NarrowReadsAreLowBits : Prop :=
  ∀ (m : Memory) (a n k : Nat), n ≤ k → k ≤ 8 →
    (memRead m a n).toNat = (memRead m a k).toNat % 2 ^ (8 * n)

/-- Memories in the model's canonical form that read alike at every offset are equal data (10_state.md, section 1.2,
the 32 cells; that they are held as a canonical list is log entry 7). -/
def Obligations.EqualContentsAreEqualMemory : Prop :=
  ∀ m m' : Memory, m.wf = true → m'.wf = true → (∀ a, m.read a = m'.read a) → m = m'

/-! ### Assembler -/

/-- The assembler (30_encoding.md, section 9) refuses a seed above 2^64 − 1 and a payload longer than 2^64 − 1 bytes:
whatever it assembles fits its fields. -/
def Obligations.AssembledCommandsFitTheirFields : Prop :=
  (∀ (line : List Char) (i : Instr), assembleLine line = .ok (some i) → i.WellFormed) ∧
  (∀ (operand : List Char) (n : Nat), literal operand = some n →
    assembleInit operand = if n < 2 ^ 64 then .ok (some (.init (BitVec.ofNat 64 n))) else .error .seedTooLarge) ∧
  (∀ (operand : List Char) (payload : List Byte), payloadOperand operand = some payload →
    assembleWrite operand = if payload.length < 2 ^ 64 then .ok (some (.write payload)) else .error .payloadTooLong)

/-- The bytes of lines stand one after another; the example lines of 30_encoding.md, section 9, give the bytes it
gives them, and `NEW` gives those of `INIT 0`. -/
def Obligations.LinesAssembleToTheirBytes : Prop :=
  (∀ (line : List Char) (lines : List (List Char)) (i : Instr) (bytes : List Byte),
    assembleLine line = .ok (some i) → assemble lines = .ok bytes →
    assemble (line :: lines) = .ok (encode i ++ bytes)) ∧
  assemble [['I', 'N', 'I', 'T', ' ', '1']] = .ok [0x01, 0x01, 0, 0, 0, 0, 0, 0, 0] ∧
  assemble [['I', 'N', 'I', 'T', ' ', '0', 'x', '0', '1', '2', '3', '4', '5', '6', '7', '8', '9', 'A', 'B', 'C', 'D', 'E',
    'F']] = .ok [0x01, 0xEF, 0xCD, 0xAB, 0x89, 0x67, 0x45, 0x23, 0x01] ∧
  assemble [['W', 'R', 'I', 'T', 'E', ' ', '"', 'a', 'b', '"']] =
    .ok [0x02, 0x02, 0, 0, 0, 0, 0, 0, 0, 0x61, 0x62] ∧
  assemble [['W', 'R', 'I', 'T', 'E', ' ', 'x', '"', '6', '1', ' ', '6', '2', '"']] =
    .ok [0x02, 0x02, 0, 0, 0, 0, 0, 0, 0, 0x61, 0x62] ∧
  assemble [['W', 'R', 'I', 'T', 'E', ' ', '"', '"']] = .ok [0x02, 0, 0, 0, 0, 0, 0, 0, 0] ∧
  assemble [['F', 'I', 'N', 'I', 'S', 'H']] = .ok [0x03] ∧
  assemble [['F', 'I', 'N', 'I', 'S', 'H', '1', '2', '8']] = .ok [0x04] ∧
  assemble [['N', 'E', 'W']] = .ok [0x01, 0, 0, 0, 0, 0, 0, 0, 0]
end

