-- ==== Sys2Proof/Laws/State.lean ====
section
/-! SUPPORT. One lemma per field per named update of the state. -/

namespace Sys2Proof.Machine

namespace State

@[simp] theorem withLanes_variant (s : State) (l : Lanes) : (s.withLanes l).variant = s.variant := rfl
@[simp] theorem withLanes_v (s : State) (l : Lanes) : (s.withLanes l).v = l := rfl
@[simp] theorem withLanes_vseed (s : State) (l : Lanes) : (s.withLanes l).vseed = s.vseed := rfl
@[simp] theorem withLanes_buf (s : State) (l : Lanes) : (s.withLanes l).buf = s.buf := rfl
@[simp] theorem withLanes_total (s : State) (l : Lanes) : (s.withLanes l).total = s.total := rfl
@[simp] theorem withLanes_initd (s : State) (l : Lanes) : (s.withLanes l).initd = s.initd := rfl
@[simp] theorem withLanes_resets (s : State) (l : Lanes) : (s.withLanes l).resets = s.resets := rfl
@[simp] theorem withLanes_input (s : State) (l : Lanes) : (s.withLanes l).input = s.input := rfl
@[simp] theorem withLanes_output (s : State) (l : Lanes) : (s.withLanes l).output = s.output := rfl

@[simp] theorem withBuf_variant (s : State) (m : Memory) : (s.withBuf m).variant = s.variant := rfl
@[simp] theorem withBuf_v (s : State) (m : Memory) : (s.withBuf m).v = s.v := rfl
@[simp] theorem withBuf_vseed (s : State) (m : Memory) : (s.withBuf m).vseed = s.vseed := rfl
@[simp] theorem withBuf_buf (s : State) (m : Memory) : (s.withBuf m).buf = m := rfl
@[simp] theorem withBuf_total (s : State) (m : Memory) : (s.withBuf m).total = s.total := rfl
@[simp] theorem withBuf_initd (s : State) (m : Memory) : (s.withBuf m).initd = s.initd := rfl
@[simp] theorem withBuf_resets (s : State) (m : Memory) : (s.withBuf m).resets = s.resets := rfl
@[simp] theorem withBuf_input (s : State) (m : Memory) : (s.withBuf m).input = s.input := rfl
@[simp] theorem withBuf_output (s : State) (m : Memory) : (s.withBuf m).output = s.output := rfl

@[simp] theorem addTotal_variant (s : State) (n : Nat) : (s.addTotal n).variant = s.variant := rfl
@[simp] theorem addTotal_v (s : State) (n : Nat) : (s.addTotal n).v = s.v := rfl
@[simp] theorem addTotal_vseed (s : State) (n : Nat) : (s.addTotal n).vseed = s.vseed := rfl
@[simp] theorem addTotal_buf (s : State) (n : Nat) : (s.addTotal n).buf = s.buf := rfl
@[simp] theorem addTotal_total (s : State) (n : Nat) : (s.addTotal n).total = s.total + BitVec.ofNat 64 n := rfl
@[simp] theorem addTotal_initd (s : State) (n : Nat) : (s.addTotal n).initd = s.initd := rfl
@[simp] theorem addTotal_resets (s : State) (n : Nat) : (s.addTotal n).resets = s.resets := rfl
@[simp] theorem addTotal_input (s : State) (n : Nat) : (s.addTotal n).input = s.input := rfl
@[simp] theorem addTotal_output (s : State) (n : Nat) : (s.addTotal n).output = s.output := rfl

@[simp] theorem withInput_variant (s : State) (rest : List Byte) : (s.withInput rest).variant = s.variant := rfl
@[simp] theorem withInput_v (s : State) (rest : List Byte) : (s.withInput rest).v = s.v := rfl
@[simp] theorem withInput_vseed (s : State) (rest : List Byte) : (s.withInput rest).vseed = s.vseed := rfl
@[simp] theorem withInput_buf (s : State) (rest : List Byte) : (s.withInput rest).buf = s.buf := rfl
@[simp] theorem withInput_total (s : State) (rest : List Byte) : (s.withInput rest).total = s.total := rfl
@[simp] theorem withInput_initd (s : State) (rest : List Byte) : (s.withInput rest).initd = s.initd := rfl
@[simp] theorem withInput_resets (s : State) (rest : List Byte) : (s.withInput rest).resets = s.resets := rfl
@[simp] theorem withInput_input (s : State) (rest : List Byte) : (s.withInput rest).input = rest := rfl
@[simp] theorem withInput_output (s : State) (rest : List Byte) : (s.withInput rest).output = s.output := rfl

@[simp] theorem setInitd_variant (s : State) : (s.setInitd).variant = s.variant := rfl
@[simp] theorem setInitd_v (s : State) : (s.setInitd).v = s.v := rfl
@[simp] theorem setInitd_vseed (s : State) : (s.setInitd).vseed = s.vseed := rfl
@[simp] theorem setInitd_buf (s : State) : (s.setInitd).buf = s.buf := rfl
@[simp] theorem setInitd_total (s : State) : (s.setInitd).total = s.total := rfl
@[simp] theorem setInitd_initd (s : State) : (s.setInitd).initd = true := rfl
@[simp] theorem setInitd_resets (s : State) : (s.setInitd).resets = s.resets := rfl
@[simp] theorem setInitd_input (s : State) : (s.setInitd).input = s.input := rfl
@[simp] theorem setInitd_output (s : State) : (s.setInitd).output = s.output := rfl

@[simp] theorem respond_variant (s : State) (r : Response) : (s.respond r).variant = s.variant := rfl
@[simp] theorem respond_v (s : State) (r : Response) : (s.respond r).v = s.v := rfl
@[simp] theorem respond_vseed (s : State) (r : Response) : (s.respond r).vseed = s.vseed := rfl
@[simp] theorem respond_buf (s : State) (r : Response) : (s.respond r).buf = s.buf := rfl
@[simp] theorem respond_total (s : State) (r : Response) : (s.respond r).total = s.total := rfl
@[simp] theorem respond_initd (s : State) (r : Response) : (s.respond r).initd = s.initd := rfl
@[simp] theorem respond_resets (s : State) (r : Response) : (s.respond r).resets = s.resets := rfl
@[simp] theorem respond_input (s : State) (r : Response) : (s.respond r).input = s.input := rfl
@[simp] theorem respond_output (s : State) (r : Response) : (s.respond r).output = s.output ++ r.bytes := rfl

@[simp] theorem respondOk_variant (s : State) (d : List Word) : (s.respondOk d).variant = s.variant := rfl
@[simp] theorem respondOk_v (s : State) (d : List Word) : (s.respondOk d).v = s.v := rfl
@[simp] theorem respondOk_vseed (s : State) (d : List Word) : (s.respondOk d).vseed = s.vseed := rfl
@[simp] theorem respondOk_buf (s : State) (d : List Word) : (s.respondOk d).buf = s.buf := rfl
@[simp] theorem respondOk_total (s : State) (d : List Word) : (s.respondOk d).total = s.total := rfl
@[simp] theorem respondOk_initd (s : State) (d : List Word) : (s.respondOk d).initd = s.initd := rfl
@[simp] theorem respondOk_resets (s : State) (d : List Word) : (s.respondOk d).resets = s.resets := rfl
@[simp] theorem respondOk_input (s : State) (d : List Word) : (s.respondOk d).input = s.input := rfl
@[simp] theorem respondOk_output (s : State) (d : List Word) : (s.respondOk d).output = s.output ++ 0x00 :: d.flatMap wordBytes := rfl

@[simp] theorem refuse_variant (s : State) (st : Status) : (s.refuse st).variant = s.variant := rfl
@[simp] theorem refuse_v (s : State) (st : Status) : (s.refuse st).v = s.v := rfl
@[simp] theorem refuse_vseed (s : State) (st : Status) : (s.refuse st).vseed = s.vseed := rfl
@[simp] theorem refuse_buf (s : State) (st : Status) : (s.refuse st).buf = s.buf := rfl
@[simp] theorem refuse_total (s : State) (st : Status) : (s.refuse st).total = s.total := rfl
@[simp] theorem refuse_initd (s : State) (st : Status) : (s.refuse st).initd = s.initd := rfl
@[simp] theorem refuse_resets (s : State) (st : Status) : (s.refuse st).resets = s.resets := rfl
@[simp] theorem refuse_input (s : State) (st : Status) : (s.refuse st).input = s.input := rfl
@[simp] theorem refuse_output (s : State) (st : Status) : (s.refuse st).output = s.output ++ [st.code] := rfl

@[simp] theorem present_variant (s : State) (bs : List Byte) : (s.present bs).variant = s.variant := rfl
@[simp] theorem present_v (s : State) (bs : List Byte) : (s.present bs).v = s.v := rfl
@[simp] theorem present_vseed (s : State) (bs : List Byte) : (s.present bs).vseed = s.vseed := rfl
@[simp] theorem present_buf (s : State) (bs : List Byte) : (s.present bs).buf = s.buf := rfl
@[simp] theorem present_total (s : State) (bs : List Byte) : (s.present bs).total = s.total := rfl
@[simp] theorem present_initd (s : State) (bs : List Byte) : (s.present bs).initd = s.initd := rfl
@[simp] theorem present_resets (s : State) (bs : List Byte) : (s.present bs).resets = s.resets := rfl
@[simp] theorem present_input (s : State) (bs : List Byte) : (s.present bs).input = s.input ++ bs := rfl
@[simp] theorem present_output (s : State) (bs : List Byte) : (s.present bs).output = s.output := rfl

/-- The filled length depends on `TOTAL` alone. -/
theorem fill_eq (s : State) : s.fill = s.total.toNat % 32 := rfl

@[simp] theorem withLanes_fill (s : State) (l : Lanes) : (s.withLanes l).fill = s.fill := rfl
@[simp] theorem withBuf_fill (s : State) (m : Memory) : (s.withBuf m).fill = s.fill := rfl
@[simp] theorem withInput_fill (s : State) (rest : List Byte) : (s.withInput rest).fill = s.fill := rfl
@[simp] theorem setInitd_fill (s : State) : (s.setInitd).fill = s.fill := rfl
@[simp] theorem respond_fill (s : State) (r : Response) : (s.respond r).fill = s.fill := rfl
@[simp] theorem respondOk_fill (s : State) (d : List Word) : (s.respondOk d).fill = s.fill := rfl
@[simp] theorem refuse_fill (s : State) (st : Status) : (s.refuse st).fill = s.fill := rfl
@[simp] theorem present_fill (s : State) (bs : List Byte) : (s.present bs).fill = s.fill := rfl

end State

/-! ### The state after a reset -/

@[simp] theorem afterReset_variant (variant : Variant) (n : Nat) (input output : List Byte) :
    (State.afterReset variant n input output).variant = variant := rfl
@[simp] theorem afterReset_buf (variant : Variant) (n : Nat) (input output : List Byte) :
    (State.afterReset variant n input output).buf = [] := rfl
@[simp] theorem afterReset_initd (variant : Variant) (n : Nat) (input output : List Byte) :
    (State.afterReset variant n input output).initd = false := rfl
@[simp] theorem afterReset_resets (variant : Variant) (n : Nat) (input output : List Byte) :
    (State.afterReset variant n input output).resets = n := rfl
@[simp] theorem afterReset_input (variant : Variant) (n : Nat) (input output : List Byte) :
    (State.afterReset variant n input output).input = input := rfl
@[simp] theorem afterReset_output (variant : Variant) (n : Nat) (input output : List Byte) :
    (State.afterReset variant n input output).output = output := rfl

/-! ### The fresh accumulator of `INIT` -/

@[simp] theorem initAccumulator_variant (seed : Word) (s : State) : (initAccumulator seed s).variant = s.variant := by
  cases h : s.variant <;> simp [initAccumulator, initLanes, initLanes64, initLanes128, State.setInitd, State.withBuf, h]
@[simp] theorem initAccumulator_buf (seed : Word) (s : State) : (initAccumulator seed s).buf = Memory.zeroed := by
  cases h : s.variant <;> simp [initAccumulator, initLanes, initLanes64, initLanes128, State.setInitd, State.withBuf, h]
@[simp] theorem initAccumulator_total (seed : Word) (s : State) : (initAccumulator seed s).total = 0 := by
  cases h : s.variant <;> simp [initAccumulator, initLanes, initLanes64, initLanes128, State.setInitd, State.withBuf, h]
@[simp] theorem initAccumulator_initd (seed : Word) (s : State) : (initAccumulator seed s).initd = true := by
  cases h : s.variant <;> simp [initAccumulator, initLanes, initLanes64, initLanes128, State.setInitd, State.withBuf, h]
@[simp] theorem initAccumulator_resets (seed : Word) (s : State) : (initAccumulator seed s).resets = s.resets := by
  cases h : s.variant <;> simp [initAccumulator, initLanes, initLanes64, initLanes128, State.setInitd, State.withBuf, h]
@[simp] theorem initAccumulator_input (seed : Word) (s : State) : (initAccumulator seed s).input = s.input := by
  cases h : s.variant <;> simp [initAccumulator, initLanes, initLanes64, initLanes128, State.setInitd, State.withBuf, h]
@[simp] theorem initAccumulator_output (seed : Word) (s : State) : (initAccumulator seed s).output = s.output := by
  cases h : s.variant <;> simp [initAccumulator, initLanes, initLanes64, initLanes128, State.setInitd, State.withBuf, h]

end Sys2Proof.Machine
end

