-- ==== Sys2Proof/Laws/Decode.lean ====
section
/-! SUPPORT. Laws of fetching and decoding: the three answers of the decoder, one for each opcode class. -/

namespace Sys2Proof

theorem decode_nil : decode [] = .error .incomplete := rfl

theorem decode_init (rest : List Byte) : decode (0x01 :: rest) = decodeSeedFormat rest := rfl

theorem decode_write (rest : List Byte) : decode (0x02 :: rest) = decodeWriteFormat rest := rfl

theorem decode_finish (rest : List Byte) : decode (0x03 :: rest) = .ok (.finish, rest) := rfl

theorem decode_finish128 (rest : List Byte) : decode (0x04 :: rest) = .ok (.finish128, rest) := rfl

/-- Every other opcode is illegal (R67). -/
theorem decode_illegal {op : Byte} (rest : List Byte) (h1 : op ≠ 0x01) (h2 : op ≠ 0x02) (h3 : op ≠ 0x03)
    (h4 : op ≠ 0x04) : decode (op :: rest) = .error (.illegalOpcode op) := by
  exact (if_neg h1).trans ((if_neg h2).trans ((if_neg h3).trans (if_neg h4)))

@[simp] theorem wordBytes_length (w : Word) : (wordBytes w).length = 8 := rfl

/-- Everything a fetch can answer. -/
theorem Machine.fetch_cases (s : Machine.State) :
    (∃ i rest, decode s.input = .ok (i, rest) ∧ Machine.fetch s = .command i (s.withInput rest)) ∨
    (∃ op, decode s.input = .error (.illegalOpcode op) ∧
      Machine.fetch s = .illegal (s.withInput (s.input.drop 1))) ∨
    (decode s.input = .error .incomplete ∧ Machine.fetch s = .waiting) := by
  unfold Machine.fetch
  rcases decode s.input with (_ | op) | ⟨i, rest⟩ <;> simp

end Sys2Proof
end

