-- ==== Sys2Proof/Laws/Memory.lean ====
section
/-! SUPPORT. Laws of the pending buffer's memory: a read after a write, the canonical form, `MemWrite` and
`bounded_copy`. -/

namespace Sys2Proof.Machine

@[simp] theorem Memory.read_nil (a : Nat) : Memory.read [] a = 0 := rfl

@[simp] theorem Memory.read_zeroed (a : Nat) : Memory.zeroed.read a = 0 := rfl

theorem Memory.wf_nil : Memory.wf [] = true := rfl

theorem Memory.wf_zeroed : Memory.zeroed.wf = true := rfl

/-- The canonical form of a non-empty list, as propositions. -/
theorem Memory.wfFrom_cons (lo a : Nat) (b : Byte) (m : Memory) :
    Memory.wfFrom lo ((a, b) :: m) = true ↔
      lo ≤ a ∧ a < 32 ∧ b ≠ 0 ∧ Memory.wfFrom (a + 1) m = true := by
  rw [Memory.wfFrom]
  simp only [Bool.and_eq_true, decide_eq_true_eq, and_assoc]
  rfl

theorem Memory.read_cons (a' : Nat) (b : Byte) (m : Memory) (a : Nat) :
    Memory.read ((a', b) :: m) a = if a = a' then b else Memory.read m a := rfl

/-- A lower bound may be lowered. -/
theorem Memory.wfFrom_mono {lo lo' : Nat} (h : lo' ≤ lo) :
    ∀ {m : Memory}, Memory.wfFrom lo m = true → Memory.wfFrom lo' m = true
  | [], _ => rfl
  | (a, b) :: m, hm => by
    rw [Memory.wfFrom_cons] at hm ⊢
    exact ⟨by omega, hm.2⟩

/-- Below its lower bound a canonical memory lists nothing. -/
theorem Memory.read_below {lo a : Nat} (h : a < lo) :
    ∀ {m : Memory}, Memory.wfFrom lo m = true → Memory.read m a = 0
  | [], _ => rfl
  | (a', b) :: m, hm => by
    rw [Memory.wfFrom_cons] at hm
    have hne : a ≠ a' := by omega
    rw [Memory.read_cons, if_neg hne]
    exact Memory.read_below (lo := a' + 1) (m := m) (by omega) hm.2.2.2

/-- Outside the 32 cells a canonical memory lists nothing. -/
theorem Memory.read_above {lo a : Nat} (ha : 32 ≤ a) :
    ∀ {m : Memory}, Memory.wfFrom lo m = true → Memory.read m a = 0
  | [], _ => rfl
  | (a', b) :: m, hm => by
    rw [Memory.wfFrom_cons] at hm
    have hne : a ≠ a' := by omega
    rw [Memory.read_cons, if_neg hne]
    exact Memory.read_above ha (m := m) hm.2.2.2

/-- A read after a write: the value written at that offset, the old value at every other. -/
theorem Memory.read_write_from {lo : Nat} (a : Nat) (b : Byte) (x : Nat) :
    ∀ {m : Memory}, Memory.wfFrom lo m = true →
      Memory.read (Memory.write m a b) x = if x = a then b else Memory.read m x
  | [], _ => by
    by_cases hb : b = Memory.unlisted
    · subst hb
      simp [Memory.write, Memory.unlisted]
    · rw [Memory.write, if_neg hb, Memory.read_cons]
  | (a', b') :: m, hm => by
    have hm' := (Memory.wfFrom_cons lo a' b' m).1 hm
    have hread : Memory.read m a' = 0 := Memory.read_below (lo := a' + 1) (m := m) (by omega) hm'.2.2.2
    rw [Memory.write]
    split
    · next h =>
      have hlow : Memory.read ((a', b') :: m) a = 0 :=
        Memory.read_below (lo := a') h
          ((Memory.wfFrom_cons a' a' b' m).2 ⟨le_refl _, hm'.2⟩)
      split
      · next hb =>
        split
        · next hx => rw [hx, hlow, hb]; rfl
        · rfl
      · rw [Memory.read_cons a b]
    · split
      · next h =>
        subst h
        split
        · next hb =>
          split
          · next hx => rw [hx, hread, hb]; rfl
          · next hx => rw [Memory.read_cons, if_neg hx]
        · rw [Memory.read_cons, Memory.read_cons]
          split <;> simp_all
      · next h1 h2 =>
        rw [Memory.read_cons, Memory.read_write_from (lo := a' + 1) a b x (m := m) hm'.2.2.2, Memory.read_cons]
        by_cases hx : x = a'
        · rw [if_pos hx, if_pos hx, if_neg (by omega)]
        · rw [if_neg hx, if_neg hx]

/-- A write inside `BUF` keeps the canonical form. -/
theorem Memory.wfFrom_write {lo a : Nat} (b : Byte) (ha : a < 32) (hlo : lo ≤ a) :
    ∀ {m : Memory}, Memory.wfFrom lo m = true → Memory.wfFrom lo (Memory.write m a b) = true
  | [], _ => by
    rw [Memory.write]
    split
    · rfl
    · next hb => exact (Memory.wfFrom_cons lo a b []).2 ⟨hlo, ha, hb, rfl⟩
  | (a', b') :: m, hm => by
    have hm' := (Memory.wfFrom_cons lo a' b' m).1 hm
    rw [Memory.write]
    split
    · next h =>
      split
      · exact hm
      · next hb =>
        exact (Memory.wfFrom_cons lo a b _).2 ⟨hlo, ha, hb, (Memory.wfFrom_cons _ a' b' m).2 ⟨by omega, hm'.2⟩⟩
    · split
      · next h =>
        subst h
        split
        · exact Memory.wfFrom_mono (m := m) (by omega) hm'.2.2.2
        · next hb => exact (Memory.wfFrom_cons lo a b m).2 ⟨hlo, ha, hb, hm'.2.2.2⟩
      · exact (Memory.wfFrom_cons lo a' b' _).2
          ⟨hm'.1, hm'.2.1, hm'.2.2.1, Memory.wfFrom_write b ha (by omega) (m := m) hm'.2.2.2⟩

/-- A read after a write, on a canonical memory. -/
theorem Memory.read_write {m : Memory} (h : m.wf = true) (a : Nat) (b : Byte) (x : Nat) :
    (m.write a b).read x = if x = a then b else m.read x :=
  Memory.read_write_from a b x h

/-- Every write inside `BUF` keeps the canonical form. -/
theorem Memory.wf_write {m : Memory} (h : m.wf = true) {a : Nat} (ha : a < 32) (b : Byte) :
    (m.write a b).wf = true :=
  Memory.wfFrom_write b ha (Nat.zero_le a) h

/-- A `MemWrite` inside `BUF`, of any width, keeps the canonical form. -/
theorem Memory.wf_memWrite : ∀ (n : Nat) {m : Memory} {a : Nat} (v : Word), m.wf = true → a + n ≤ 32 →
    (memWrite m a n v).wf = true
  | 0, _, _, _, h, _ => h
  | n + 1, _, _, v, h, ha =>
    Memory.wf_memWrite n (v >>> 8) (Memory.wf_write h (by omega) (v.setWidth 8)) (by omega)

/-- The buffer after any reset is canonical. -/
theorem State.afterReset_buf_wf (variant : Variant) (n : Nat) (input output : List Byte) :
    (State.afterReset variant n input output).buf.wf = true := rfl

@[simp] theorem setWidth_zext64 (b : Byte) : (zext64 b).setWidth 8 = b := by
  apply BitVec.eq_of_toNat_eq
  simp [zext64]

/-- A one-byte `MemWrite` writes one cell. -/
@[simp] theorem memWrite_one (m : Memory) (a : Nat) (b : Byte) : memWrite m a 1 (zext64 b) = m.write a b := by
  simp [memWrite]

/-- What copying a list of bytes to `BUF[d ..]` does: each byte in its cell, every other cell as before, the canonical
form kept. -/
theorem putCells_spec : ∀ (bs : List Byte) (m : Memory) (d : Nat), m.wf = true → d + bs.length ≤ 32 →
    (putCells m d bs).wf = true ∧
    (∀ j, (h : j < bs.length) → (putCells m d bs).read (d + j) = bs[j]) ∧
    (∀ a, a < d ∨ d + bs.length ≤ a → (putCells m d bs).read a = m.read a)
  | [], m, d, hm, _ => ⟨hm, fun j h => absurd h (by simp), fun _ _ => rfl⟩
  | b :: bs, m, d, hm, hd => by
    simp only [List.length_cons] at hd
    have hw := Memory.wf_write hm (a := d) (by omega) b
    obtain ⟨h1, h2, h3⟩ := putCells_spec bs (m.write d b) (d + 1) hw (by omega)
    simp only [putCells, memWrite_one]
    refine ⟨h1, ?_, ?_⟩
    · intro j hj
      cases j with
      | zero =>
        have := h3 d (Or.inl (by omega))
        simp [this, Memory.read_write hm]
      | succ j =>
        have := h2 j (by simpa using hj)
        simpa [Nat.add_assoc, Nat.add_comm 1 j] using this
    · intro a ha
      simp only [List.length_cons] at ha
      rw [h3 a (by omega), Memory.read_write hm]
      have : a ≠ d := by omega
      simp [this]

/-- `bounded_copy` answers exactly inside its contract (R87, U1). -/
theorem boundedCopy_isSome (c : List Byte) (s d n : Nat) (m : Memory) :
    (boundedCopy c s d n m).isSome = true ↔ n < 32 ∧ s + n ≤ c.length ∧ d + n ≤ 32 := by
  unfold boundedCopy Memory.size
  split <;> simp_all

/-- Inside its contract `bounded_copy` is the copy of the bytes in turn. -/
theorem boundedCopy_eq {c : List Byte} {s d n : Nat} (m : Memory) (h1 : n < 32) (h2 : s + n ≤ c.length)
    (h3 : d + n ≤ 32) : boundedCopy c s d n m = some (putCells m d ((c.drop s).take n)) := by
  simp [boundedCopy, Memory.size, h1, h2, h3]

/-- Everything `bounded_copy` can do: if it answers, the copied bytes are in their cells, every other cell is as before,
and the canonical form is kept. -/
theorem boundedCopy_spec {c : List Byte} {s d n : Nat} {m m' : Memory} (hm : m.wf = true)
    (h : boundedCopy c s d n m = some m') :
    m'.wf = true ∧ (∀ j, j < n → (c)[s + j]? = some (m'.read (d + j))) ∧
    (∀ a, a < d ∨ d + n ≤ a → m'.read a = m.read a) := by
  obtain ⟨h1, h2, h3⟩ := (boundedCopy_isSome c s d n m).1 (by simp [h])
  rw [boundedCopy_eq m h1 h2 h3, Option.some.injEq] at h
  subst h
  have hl : ((c.drop s).take n).length = n := by simp; omega
  obtain ⟨w, r, f⟩ := putCells_spec ((c.drop s).take n) m d hm (by omega)
  refine ⟨w, fun j hj => ?_, fun a ha => f a (by omega)⟩
  have hlt : s + j < c.length := by omega
  rw [r j (by omega), List.getElem?_eq_getElem hlt]
  simp

@[simp] theorem memBytes_length (m : Memory) (a n : Nat) : (memBytes m a n).length = n := by
  simp [memBytes]

theorem memBytes_getElem (m : Memory) (a n j : Nat) (h : j < (memBytes m a n).length) :
    (memBytes m a n)[j] = m.read (a + j) := by
  simp [memBytes]

/-- A read of `BUF` depends on the cells it reads alone. -/
theorem memRead_congr {m m' : Memory} {a n : Nat} (h : ∀ j, j < n → m.read (a + j) = m'.read (a + j)) :
    memRead m a n = memRead m' a n := by
  unfold memRead memBytes
  congr 1
  apply List.map_congr_left
  intro j hj
  exact h j (List.mem_range.1 hj)

end Sys2Proof.Machine
end

