-- ==== Sys2Proof/Laws/Stream.lean ====
section
/-! SUPPORT. Laws of streams and of mixing their blocks: the block loop of `WRITE` against the fold over blocks, prefixes
and suffixes of a stream, and a full buffer read as a block. -/

namespace Sys2Proof.Machine

@[simp] theorem mixStream_zero (v : Variant) (S : List Byte) (l : Lanes) : mixStream v S 0 l = l := rfl

theorem mixStream_succ (v : Variant) (S : List Byte) (q : Nat) (l : Lanes) :
    mixStream v S (q + 1) l = mixStreamBlock v S (mixStream v S q l) q := by
  simp [mixStream, List.range_succ]

/-- A payload read past a dropped front. -/
theorem inRead_drop (S : List Byte) (d off n : Nat) : inRead (S.drop d) off n = inRead S (d + off) n := by
  simp [inRead, List.drop_drop]

theorem mixPayload_drop (k : Constants) (S : List Byte) (d p : Nat) (l : Lanes) :
    mixPayload k (S.drop d) p l = mixPayload k S (d + p) l := by
  simp [mixPayload, inRead_drop, Nat.add_assoc]

/-- A payload read that lies inside a front part of the payload. -/
theorem inRead_append_left {A B : List Byte} {off n : Nat} (h : off + n ≤ A.length) :
    inRead (A ++ B) off n = inRead A off n := by
  unfold inRead
  congr 1
  rw [List.drop_append_of_le_length (by omega), List.take_append_of_le_length (by simp; omega)]

theorem mixPayload_append_left (k : Constants) {A B : List Byte} {p : Nat} (h : p + 32 ≤ A.length) (l : Lanes) :
    mixPayload k (A ++ B) p l = mixPayload k A p l := by
  unfold mixPayload
  rw [inRead_append_left (by omega), inRead_append_left (by omega), inRead_append_left (by omega),
    inRead_append_left (by omega)]

/-- The blocks inside a front part of the stream are those of the front part. -/
theorem mixStream_append_left (v : Variant) (A B : List Byte) (l : Lanes) :
    ∀ q, 32 * q ≤ A.length → mixStream v (A ++ B) q l = mixStream v A q l
  | 0, _ => rfl
  | q + 1, h => by
    rw [mixStream_succ, mixStream_succ, mixStream_append_left v A B l q (by omega)]
    exact mixPayload_append_left _ (by omega) _

/-- Blocks mixed in two parts: the first `p`, then `q` more of what follows them. -/
theorem mixStream_add (v : Variant) (S : List Byte) (p : Nat) (l : Lanes) :
    ∀ q, mixStream v S (p + q) l = mixStream v (S.drop (32 * p)) q (mixStream v S p l)
  | 0 => rfl
  | q + 1 => by
    rw [← Nat.add_assoc, mixStream_succ, mixStream_succ, mixStream_add v S p l q]
    simp only [mixStreamBlock]
    rw [mixPayload_drop, Nat.mul_add]

/-- The block loop of R111 is the fold over the blocks that follow its cursor. -/
theorem mixPayloadLoop_eq (v : Variant) (S : List Byte) :
    ∀ (count p : Nat) (l : Lanes),
      mixPayloadLoop (constants v) S count p l = mixStream v (S.drop p) count l
  | 0, _, _ => rfl
  | count + 1, p, l => by
    rw [mixPayloadLoop, mixPayloadLoop_eq v S count (p + 32), Nat.add_comm count 1, mixStream_add, List.drop_drop]
    congr 1
    simp [mixStream, mixStreamBlock, mixPayload_drop]

/-- Reading the `n` cells from `a` of a buffer whose cells from 0 are the bytes of a list. -/
theorem memRead_eq_inRead {m : Memory} {S : List Byte} {a n : Nat}
    (h : ∀ j, j < S.length → S[j]? = some (m.read j)) (ha : a + n ≤ S.length) : memRead m a n = inRead S a n := by
  unfold memRead inRead
  congr 1
  apply List.ext_getElem
  · simp; omega
  · intro j h1 h2
    have hj : j < n := by simpa using h1
    have := h (a + j) (by omega)
    rw [List.getElem?_eq_getElem (by omega), Option.some.injEq] at this
    simp [memBytes, this]

/-- A full buffer mixed is the block of its 32 bytes mixed. -/
theorem mixMemory_eq {k : Constants} {m : Memory} {S : List Byte} (l : Lanes)
    (h : ∀ j, j < S.length → S[j]? = some (m.read j)) (h32 : 32 ≤ S.length) :
    mixMemory k m l = mixPayload k S 0 l := by
  unfold mixMemory mixPayload
  rw [memRead_eq_inRead h (by omega), memRead_eq_inRead h (by omega), memRead_eq_inRead h (by omega),
    memRead_eq_inRead h (by omega)]

@[simp] theorem streamTail_length (S : List Byte) : (streamTail S).length = S.length % 32 := by
  simp [streamTail]
  omega

/-- Cells read one by one are the list of them. -/
theorem memBytes_getElem? (m : Memory) (a n j : Nat) (h : j < n) :
    (memBytes m a n)[j]? = some (m.read (a + j)) := by
  simp [memBytes, h]

end Sys2Proof.Machine
end

