-- ==== Sys2Proof/Laws/Finish.lean ====
section
/-! SUPPORT. Laws of the tail of a finalisation: which of the five steps run and where they read, and that they depend on
the live cells alone. -/

namespace Sys2Proof.Machine

/-- A tail step that has enough bytes left runs; one that has not leaves the working registers as they are. -/
theorem tailStep_pos {tailEnd width : Nat} {f : Work → Work} {x : Work} (h : width ≤ tailEnd - x.ptr) :
    tailStep tailEnd width f x = f x := if_pos h

theorem tailStep_neg {tailEnd width : Nat} {f : Work → Work} {x : Work} (h : tailEnd - x.ptr < width) :
    tailStep tailEnd width f x = x := if_neg (by omega)

@[simp] theorem tail16_64_ptr (m : Memory) (x : Work) : (tail16_64 m x).ptr = x.ptr + 16 := rfl
@[simp] theorem tail8_64_ptr (m : Memory) (x : Work) : (tail8_64 m x).ptr = x.ptr + 8 := rfl
@[simp] theorem tail4_64_ptr (m : Memory) (x : Work) : (tail4_64 m x).ptr = x.ptr + 4 := rfl
@[simp] theorem tail2_64_ptr (m : Memory) (x : Work) : (tail2_64 m x).ptr = x.ptr + 2 := rfl
@[simp] theorem tail1_64_ptr (m : Memory) (x : Work) : (tail1_64 m x).ptr = x.ptr + 1 := rfl
@[simp] theorem tail16_128_ptr (m : Memory) (x : Work) : (tail16_128 m x).ptr = x.ptr + 16 := rfl
@[simp] theorem tail8_128_ptr (m : Memory) (x : Work) : (tail8_128 m x).ptr = x.ptr + 8 := rfl
@[simp] theorem tail4_128_ptr (m : Memory) (x : Work) : (tail4_128 m x).ptr = x.ptr + 4 := rfl
@[simp] theorem tail2_128_ptr (m : Memory) (x : Work) : (tail2_128 m x).ptr = x.ptr + 2 := rfl
@[simp] theorem tail1_128_ptr (m : Memory) (x : Work) : (tail1_128 m x).ptr = x.ptr + 1 := rfl

/-- A step of the tail, run at its threshold: it advances the cursor by its width and depends on the buffer only through
the `width` cells at the cursor. -/
structure TailLocal (width : Nat) (f : Memory → Work → Work) : Prop where
  ptr : ∀ m x, (f m x).ptr = x.ptr + width
  cells : ∀ m m' x, (∀ j, j < width → m.read (x.ptr + j) = m'.read (x.ptr + j)) → f m x = f m' x

theorem tailLocal_tail16_64 : TailLocal 16 tail16_64 where
  ptr _ _ := rfl
  cells m m' x h := by
    have h1 : memRead m x.ptr 8 = memRead m' x.ptr 8 := memRead_congr fun j hj => h j (by omega)
    have h2 : memRead m (x.ptr + 8) 8 = memRead m' (x.ptr + 8) 8 := memRead_congr fun j hj => by
      rw [Nat.add_assoc]; exact h (8 + j) (by omega)
    simp only [tail16_64, h1, h2]

theorem tailLocal_absorb64 (width amount : Nat) : TailLocal width (absorb64 width amount) where
  ptr _ _ := rfl
  cells m m' x h := by simp only [absorb64, memRead_congr h]

theorem tailLocal_tail16_128 : TailLocal 16 tail16_128 where
  ptr _ _ := rfl
  cells m m' x h := by
    have h1 : memRead m x.ptr 8 = memRead m' x.ptr 8 := memRead_congr fun j hj => h j (by omega)
    have h2 : memRead m (x.ptr + 8) 8 = memRead m' (x.ptr + 8) 8 := memRead_congr fun j hj => by
      rw [Nat.add_assoc]; exact h (8 + j) (by omega)
    simp only [tail16_128, h1, h2]

theorem tailLocal_absorb128Lane0 (width amount : Nat) : TailLocal width (absorb128Lane0 width amount) where
  ptr _ _ := rfl
  cells m m' x h := by simp only [absorb128Lane0, memRead_congr h]

theorem tailLocal_absorb128Lane1 (width amount : Nat) : TailLocal width (absorb128Lane1 width amount) where
  ptr _ _ := rfl
  cells m m' x h := by simp only [absorb128Lane1, memRead_congr h]

theorem tailLocal_tail8_64 : TailLocal 8 tail8_64 := tailLocal_absorb64 8 55
theorem tailLocal_tail4_64 : TailLocal 4 tail4_64 := tailLocal_absorb64 4 26
theorem tailLocal_tail2_64 : TailLocal 2 tail2_64 := tailLocal_absorb64 2 48
theorem tailLocal_tail1_64 : TailLocal 1 tail1_64 := tailLocal_absorb64 1 37

theorem tailLocal_tail8_128 : TailLocal 8 tail8_128 := tailLocal_absorb128Lane0 8 27
theorem tailLocal_tail4_128 : TailLocal 4 tail4_128 := tailLocal_absorb128Lane1 4 46
theorem tailLocal_tail2_128 : TailLocal 2 tail2_128 := tailLocal_absorb128Lane0 2 22
theorem tailLocal_tail1_128 : TailLocal 1 tail1_128 := tailLocal_absorb128Lane1 1 58

/-- A threshold test with its step depends on the live cells alone: what it reads lies before the tail's end. -/
theorem tailStep_congr {tailEnd width : Nat} {f : Memory → Work → Work} (hf : TailLocal width f) {m m' : Memory}
    (h : sameLive tailEnd m m') (x : Work) : tailStep tailEnd width (f m) x = tailStep tailEnd width (f m') x := by
  by_cases hw : width ≤ tailEnd - x.ptr
  · rw [tailStep_pos hw, tailStep_pos hw]
    exact hf.cells m m' x fun j hj => h _ (by omega)
  · rw [tailStep_neg (by omega), tailStep_neg (by omega)]

end Sys2Proof.Machine
end

