-- ==== Sys2Proof/Laws/PerInstr.lean ====
section
/-! SUPPORT. The family of statements made per constructor: a command's opcode byte and the length of its encoding (R66,
R68). -/

namespace Sys2Proof.Laws.EncodedLength

/-- The opcode byte of R66; `NEW` has that of `INIT` (R72). -/
def opcode : Instr → Byte
  | .init _ => 0x01
  | .write _ => 0x02
  | .finish => 0x03
  | .finish128 => 0x04
  | .new => 0x01

/-- The value of the field `LEN`, for the one command that has it (R64). -/
def len : Instr → Nat
  | .init _ => 0
  | .write payload => payload.length
  | .finish => 0
  | .finish128 => 0
  | .new => 0

/-- The encoding begins with the opcode byte of R66 and has the length that R68 tells from it and from `LEN`. -/
def Statement (i : Instr) : Prop :=
  (encode i).head? = some (opcode i) ∧ (encode i).length = commandLength (opcode i) (len i)

theorem init (seed : Word) : Statement (.init seed) := ⟨rfl, rfl⟩

theorem write (payload : List Byte) : Statement (.write payload) := by
  refine ⟨rfl, ?_⟩
  have h : commandLength 0x02 payload.length = 9 + payload.length := rfl
  simp only [opcode, len, h, encode, List.length_cons, List.length_append, wordBytes_length]
  omega

theorem finish : Statement .finish := ⟨rfl, rfl⟩

theorem finish128 : Statement .finish128 := ⟨rfl, rfl⟩

theorem new : Statement .new := ⟨rfl, rfl⟩

end Sys2Proof.Laws.EncodedLength
end

