-- ==== Sys2Proof/Laws/Write.lean ====
section
/-! SUPPORT. Everything the shared operations of `WRITE` can do: the two parts of R111 and `PutByte`, each as one
equation on the state and the reads of the new buffer. -/

namespace Sys2Proof.Machine

/-- Counts add where words do. -/
theorem addTotal_addTotal (s : State) (a b : Nat) : (s.addTotal a).addTotal b = s.addTotal (a + b) := by
  simp [State.addTotal, BitVec.ofNat_add, BitVec.add_assoc]

/-- Within range, `TOTAL` grows by exactly the count (R117). -/
theorem addTotal_toNat {s : State} {n : Nat} (h : s.total.toNat + n ≤ 2 ^ 64 - 1) :
    (s.addTotal n).total.toNat = s.total.toNat + n := by
  simp only [State.addTotal_total, BitVec.toNat_add, BitVec.toNat_ofNat]
  omega

/-- The fill after counting, in range or not: `TOTAL` wraps at a multiple of 32. -/
theorem addTotal_fill (s : State) (n : Nat) : (s.addTotal n).fill = (s.fill + n) % 32 := by
  simp only [State.fill_eq, State.addTotal_total, BitVec.toNat_add, BitVec.toNat_ofNat]
  omega

theorem fill_lt (s : State) : s.fill < 32 := Nat.mod_lt _ (by decide)

/-- Steps 3 and 4 of R111: they always answer, they count and mix the rest of the payload, and they put what follows its
whole blocks in the first cells of the buffer. -/
theorem absorbAligned_spec {payload : List Byte} {p : Nat} {s : State} (hm : s.buf.wf = true)
    (hp : p ≤ payload.length) :
    ∃ m, absorbAligned payload p s = some { s with
        v := mixStream s.variant (payload.drop p) ((payload.length - p) / 32) s.v
        buf := m
        total := s.total + BitVec.ofNat 64 (payload.length - p) } ∧
      m.wf = true ∧
      (∀ j, j < (payload.length - p) % 32 → (streamTail (payload.drop p))[j]? = some (m.read j)) ∧
      (∀ a, (payload.length - p) % 32 ≤ a → m.read a = s.buf.read a) := by
  unfold absorbAligned
  simp only [State.addTotal_variant, State.addTotal_v, mixPayloadLoop_eq]
  by_cases h : p + 32 * ((payload.length - p) / 32) < payload.length
  · have hc := boundedCopy_eq (c := payload) (s := p + 32 * ((payload.length - p) / 32)) (d := 0)
      (n := payload.length - (p + 32 * ((payload.length - p) / 32))) s.buf (by omega) (by omega) (by omega)
    obtain ⟨hw, hr, hf⟩ := boundedCopy_spec hm hc
    refine ⟨_, ?_, hw, fun j hj => ?_, fun a ha => hf a (by omega)⟩
    · simp only [h, if_true, State.withLanes_buf, State.addTotal_buf, hc]
      rfl
    · rw [streamTail, List.drop_drop, List.length_drop, List.getElem?_drop]
      simpa using hr j (by omega)
  · refine ⟨s.buf, ?_, hm, fun j hj => absurd hj (by omega), fun _ _ => rfl⟩
    simp only [h, if_false]
    rfl

/-- R111 on a block boundary. -/
theorem absorb_of_aligned {payload : List Byte} {s : State} (h : s.fill = 0) :
    absorb payload s = absorbAligned payload 0 s := by
  simp [absorb, h]

/-- R111 where the payload does not complete the block. -/
theorem absorb_of_short {payload : List Byte} {s : State} (h0 : s.fill ≠ 0)
    (h : s.fill + payload.length < 32) :
    absorb payload s = some ((s.withBuf (putCells s.buf s.fill payload)).addTotal payload.length) := by
  have hmin : min (32 - s.fill) payload.length = payload.length := by omega
  have hc := boundedCopy_eq (c := payload) (s := 0) (d := s.fill) (n := payload.length) s.buf (by omega) (by omega)
    (by omega)
  have hfill : ((s.withBuf (putCells s.buf s.fill payload)).addTotal payload.length).fill ≠ 0 := by
    rw [addTotal_fill, State.withBuf_fill]
    omega
  simp only [absorb, h0, hmin, hc, List.drop_zero, List.take_length, ne_eq, not_false_eq_true, if_true, hfill]

/-- R111 where the payload completes the buffered block: the block is mixed, then the rest is absorbed on the
boundary. -/
theorem absorb_of_full {payload : List Byte} {s : State} (h0 : s.fill ≠ 0)
    (h : 32 ≤ s.fill + payload.length) :
    absorb payload s = absorbAligned payload (32 - s.fill)
      (((s.withBuf (putCells s.buf s.fill (payload.take (32 - s.fill)))).addTotal (32 - s.fill)).withLanes
        (mixMemory (constants s.variant) (putCells s.buf s.fill (payload.take (32 - s.fill))) s.v)) := by
  have hlt := fill_lt s
  have hmin : min (32 - s.fill) payload.length = 32 - s.fill := by omega
  have hc := boundedCopy_eq (c := payload) (s := 0) (d := s.fill) (n := 32 - s.fill) s.buf (by omega) (by omega)
    (by omega)
  have hfill : ((s.withBuf (putCells s.buf s.fill (payload.take (32 - s.fill)))).addTotal (32 - s.fill)).fill = 0 := by
    rw [addTotal_fill, State.withBuf_fill]
    omega
  simp only [absorb, h0, hmin, hc, List.drop_zero, ne_eq, not_false_eq_true, if_true, hfill, not_true_eq_false, if_false]
  rfl

/-- Everything R111 can do on a canonical buffer: it always answers, and with `X` the buffered bytes and then the payload,
the lanes take in the whole blocks of `X` in order, `TOTAL` grows by the payload's length, the live cells hold what
follows the whole blocks of `X`, and nothing else changes. -/
theorem absorb_spec (payload : List Byte) {s : State} (hm : s.buf.wf = true) :
    ∃ m, absorb payload s = some { s with
        v := mixStream s.variant (memBytes s.buf 0 s.fill ++ payload) ((s.fill + payload.length) / 32) s.v
        buf := m
        total := s.total + BitVec.ofNat 64 payload.length } ∧
      m.wf = true ∧
      (∀ j, j < (s.fill + payload.length) % 32 →
        (streamTail (memBytes s.buf 0 s.fill ++ payload))[j]? = some (m.read j)) := by
  have hlt := fill_lt s
  by_cases h0 : s.fill = 0
  · obtain ⟨m, he, hw, hr, -⟩ := absorbAligned_spec (payload := payload) (p := 0) hm (by omega)
    refine ⟨m, ?_, hw, ?_⟩
    · rw [absorb_of_aligned h0, he]
      simp [h0, memBytes]
    · simpa [h0, memBytes] using hr
  · by_cases hs : s.fill + payload.length < 32
    · obtain ⟨hw, hr, hf⟩ := putCells_spec payload s.buf s.fill hm (by omega)
      have hq : (s.fill + payload.length) / 32 = 0 := by omega
      refine ⟨_, ?_, hw, fun j hj => ?_⟩
      · rw [absorb_of_short h0 hs, hq]
        rfl
      · rw [streamTail, List.length_append, memBytes_length, hq, Nat.mul_zero, List.drop_zero]
        by_cases hj' : j < s.fill
        · rw [List.getElem?_append_left (by simpa using hj'), memBytes_getElem? _ _ _ _ hj', hf j (Or.inl hj'), Nat.zero_add]
        · rw [List.getElem?_append_right (by simpa using hj'), memBytes_length,
            List.getElem?_eq_getElem (by omega), ← hr (j - s.fill) (by omega)]
          congr 2
          omega
    · have hs : 32 ≤ s.fill + payload.length := by omega
      have hlen : (payload.take (32 - s.fill)).length = 32 - s.fill := by simp; omega
      obtain ⟨hw, hr, hf⟩ := putCells_spec (payload.take (32 - s.fill)) s.buf s.fill hm (by omega)
      obtain ⟨m, he, hw', hr', -⟩ := absorbAligned_spec (payload := payload) (p := 32 - s.fill)
        (s := ((s.withBuf (putCells s.buf s.fill (payload.take (32 - s.fill)))).addTotal (32 - s.fill)).withLanes
          (mixMemory (constants s.variant) (putCells s.buf s.fill (payload.take (32 - s.fill))) s.v))
        hw (by omega)
      have hX : ∀ j, j < (memBytes s.buf 0 s.fill ++ payload.take (32 - s.fill)).length →
          (memBytes s.buf 0 s.fill ++ payload.take (32 - s.fill))[j]? =
            some ((putCells s.buf s.fill (payload.take (32 - s.fill))).read j) := by
        intro j hj
        by_cases hj' : j < s.fill
        · rw [List.getElem?_append_left (by simpa using hj'), memBytes_getElem? _ _ _ _ hj', hf j (Or.inl hj'), Nat.zero_add]
        · rw [List.getElem?_append_right (by simpa using hj'), memBytes_length,
            List.getElem?_eq_getElem (by simp at hj ⊢; omega), ← hr (j - s.fill) (by simp at hj ⊢; omega)]
          congr 2
          omega
      have hX32 : (memBytes s.buf 0 s.fill ++ payload.take (32 - s.fill)).length = 32 := by
        rw [List.length_append, hlen, memBytes_length]; omega
      have hsplit : memBytes s.buf 0 s.fill ++ payload =
          (memBytes s.buf 0 s.fill ++ payload.take (32 - s.fill)) ++ payload.drop (32 - s.fill) := by
        rw [List.append_assoc, List.take_append_drop]
      have hdrop : (memBytes s.buf 0 s.fill ++ payload).drop 32 = payload.drop (32 - s.fill) := by
        rw [hsplit, List.drop_append_of_le_length (by omega), List.drop_eq_nil_of_le (by omega), List.nil_append]
      have hq : (s.fill + payload.length) / 32 = 1 + (payload.length - (32 - s.fill)) / 32 := by omega
      refine ⟨m, ?_, hw', fun j hj => ?_⟩
      · rw [absorb_of_full h0 hs, he, hq, mixStream_add, Nat.mul_one, hdrop]
        have hone : mixStream s.variant (memBytes s.buf 0 s.fill ++ payload) 1 s.v =
            mixMemory (constants s.variant) (putCells s.buf s.fill (payload.take (32 - s.fill))) s.v := by
          rw [mixMemory_eq s.v hX (by omega), hsplit, mixStream_append_left _ _ _ _ 1 (by omega)]
          rfl
        have htot : s.total + BitVec.ofNat 64 (32 - s.fill) + BitVec.ofNat 64 (payload.length - (32 - s.fill)) =
            s.total + BitVec.ofNat 64 payload.length := by
          rw [BitVec.add_assoc, ← BitVec.ofNat_add]
          congr 2
          omega
        rw [hone]
        simp [State.withLanes, State.addTotal, State.withBuf, htot]
      · have := hr' j (by omega)
        rw [← this, streamTail, streamTail, ← hdrop, List.drop_drop, List.length_drop, List.length_append, memBytes_length, hq]
        congr 2
        omega

/-- Everything R116's `PutByte`, byte after byte, can do on a canonical buffer: the same as R111, but for dead cells. -/
theorem putBytes_spec : ∀ (payload : List Byte) (s : State), s.buf.wf = true →
    ∃ m, putBytes payload s = { s with
        v := mixStream s.variant (memBytes s.buf 0 s.fill ++ payload) ((s.fill + payload.length) / 32) s.v
        buf := m
        total := s.total + BitVec.ofNat 64 payload.length } ∧
      m.wf = true ∧
      (∀ j, j < (s.fill + payload.length) % 32 →
        (streamTail (memBytes s.buf 0 s.fill ++ payload))[j]? = some (m.read j))
  | [], s, hm => by
    have hlt := fill_lt s
    refine ⟨s.buf, ?_, hm, fun j hj => ?_⟩
    · have : s.fill / 32 = 0 := by omega
      simp [putBytes, this]
    · simp only [List.length_nil, Nat.add_zero] at hj
      have h : s.fill / 32 = 0 := by omega
      rw [streamTail, List.append_nil, memBytes_length, h, Nat.mul_zero, List.drop_zero,
        memBytes_getElem? _ _ _ _ (by omega), Nat.zero_add]
  | b :: bs, s, hm => by
    have hlt := fill_lt s
    have hw := Memory.wf_write hm hlt b
    have hcells : ∀ j, j < s.fill + 1 → (memBytes s.buf 0 s.fill ++ [b])[j]? = some ((s.buf.write s.fill b).read j) := by
      intro j hj
      rw [Memory.read_write hm]
      by_cases hj' : j < s.fill
      · rw [List.getElem?_append_left (by simpa using hj'), memBytes_getElem? _ _ _ _ hj', if_neg (by omega), Nat.zero_add]
      · have : j = s.fill := by omega
        subst this
        rw [List.getElem?_append_right (by simp), if_pos rfl]
        simp
    have hcons : memBytes s.buf 0 s.fill ++ b :: bs = (memBytes s.buf 0 s.fill ++ [b]) ++ bs := by simp
    have hfill1 : ((s.withBuf (s.buf.write s.fill b)).addTotal 1).fill = (s.fill + 1) % 32 := by
      rw [addTotal_fill, State.withBuf_fill]
    have htot : s.total + 1#64 + BitVec.ofNat 64 bs.length = s.total + BitVec.ofNat 64 (bs.length + 1) := by
      rw [BitVec.add_assoc, Nat.add_comm bs.length 1, BitVec.ofNat_add]
    by_cases h31 : s.fill + 1 < 32
    · have hput : putByte b s = (s.withBuf (s.buf.write s.fill b)).addTotal 1 := by
        unfold putByte
        rw [if_neg (by rw [hfill1]; omega)]
      have hbytes : memBytes (s.buf.write s.fill b) 0 (s.fill + 1) = memBytes s.buf 0 s.fill ++ [b] := by
        apply List.ext_getElem?
        intro j
        by_cases hj : j < s.fill + 1
        · rw [hcells j hj, memBytes_getElem? _ _ _ _ hj, Nat.zero_add]
        · rw [List.getElem?_eq_none (by simpa using hj), List.getElem?_eq_none (by simpa using hj)]
      obtain ⟨m, he, hw', hr⟩ := putBytes_spec bs (putByte b s) (by rw [hput]; exact hw)
      have hf : (putByte b s).fill = s.fill + 1 := by rw [hput, hfill1]; omega
      have hb : memBytes (putByte b s).buf 0 (putByte b s).fill = memBytes s.buf 0 s.fill ++ [b] := by
        rw [hf, hput]; exact hbytes
      rw [hb, hf, ← hcons] at he hr
      refine ⟨m, ?_, hw', ?_⟩
      · rw [putBytes, he, hput]
        simp only [State.addTotal_variant, State.withBuf_variant, State.addTotal_v, State.withBuf_v, List.length_cons]
        rw [show s.fill + 1 + bs.length = s.fill + (bs.length + 1) by omega, ← htot]
        rfl
      · rw [List.length_cons, show s.fill + (bs.length + 1) = s.fill + 1 + bs.length by omega]
        exact hr
    · have hlen : (memBytes s.buf 0 s.fill ++ [b]).length = 32 := by simp; omega
      have hput : putByte b s = ((s.withBuf (s.buf.write s.fill b)).addTotal 1).withLanes
          (mixPayload (constants s.variant) (memBytes s.buf 0 s.fill ++ [b]) 0 s.v) := by
        unfold putByte
        rw [if_pos (by rw [hfill1]; omega), ← mixMemory_eq s.v (m := s.buf.write s.fill b)
          (fun j hj => hcells j (by rw [hlen] at hj; omega)) (by omega)]
        rfl
      obtain ⟨m, he, hw', hr⟩ := putBytes_spec bs (putByte b s) (by rw [hput]; exact hw)
      have hf : (putByte b s).fill = 0 := by rw [hput, State.withLanes_fill, hfill1]; omega
      have hb : memBytes (putByte b s).buf 0 (putByte b s).fill = [] := by rw [hf]; rfl
      rw [hb, hf, Nat.zero_add, List.nil_append] at he hr
      have hq : (s.fill + (bs.length + 1)) / 32 = 1 + bs.length / 32 := by omega
      have hdrop : (memBytes s.buf 0 s.fill ++ b :: bs).drop 32 = bs := by
        rw [hcons, List.drop_append_of_le_length (by omega), List.drop_eq_nil_of_le (by omega), List.nil_append]
      refine ⟨m, ?_, hw', ?_⟩
      · rw [putBytes, he, hput, List.length_cons, hq, mixStream_add, Nat.mul_one, hdrop, hcons,
          mixStream_append_left _ _ _ _ 1 (by omega), ← htot]
        rfl
      · intro j hj
        rw [List.length_cons] at hj
        rw [streamTail, List.length_append, List.length_cons, memBytes_length, hq, Nat.mul_add, ← List.drop_drop,
          Nat.mul_one, hdrop]
        exact hr j (by omega)

end Sys2Proof.Machine
end

