-- ==== Sys2Proof/Tests/Slice0.lean ====
section
/-! SUPPORT. Tests. Every expected value is taken from the spec: the worked examples beside the rules, the source vectors
and derived vectors of 95_test_vectors.md and 96_test_vector_tables.md, or a count by hand. After them, one witness for
each obligation that has hypotheses: a concrete state and operands that meet all of them together. -/

namespace Sys2Proof.Tests

open Sys2Proof.Machine

/-! ### Helpers -/

/-- An initialised instance with given lanes, buffer and count, whose `VSEED` is 5. -/
def running (variant : Variant) (v : Lanes) (buf : Memory) (total : Word) : State where
  variant := variant
  v := v
  vseed := 5
  buf := buf
  total := total
  initd := true
  resets := 0
  input := []
  output := []

/-- An instance before its first `INIT`, with arbitrary register contents. -/
def blank (variant : Variant) : State := { running variant ⟨9, 8, 7, 6⟩ [(3, 0x77)] 45 with initd := false }

/-- The ASCII digits cycling, the spec's pattern A: the document's 63-byte string is its first 63 bytes. -/
def digits (n : Nat) : List Byte := (List.range n).map fun i => BitVec.ofNat 8 (0x30 + i % 10)

/-- Four different lanes. -/
def lanes : Lanes := ⟨1, 2, 3, 4⟩

/-- The next state of an outcome. -/
def next? (r : Host.Outcome State Fault Refusal) : Option State :=
  match r with
  | .next s => some s
  | .fault _ => none
  | .refused _ => none

/-! ### Well-formedness: the one check there is, on `LEN` (R73) -/

theorem long_payload_is_ill_formed (n : Nat) (h : 2 ^ 64 ≤ n) : ¬ (Instr.write (List.replicate n 0)).WellFormed := by
  intro hw
  have hw : (List.replicate n (0 : Byte)).length < 2 ^ 64 := hw
  rw [List.length_replicate] at hw
  exact absurd hw (Nat.not_lt.2 h)

theorem test_payload_too_long_is_ill_formed : ¬ (Instr.write (List.replicate (2 ^ 64) 0)).WellFormed :=
  long_payload_is_ill_formed (2 ^ 64) (Nat.le_refl _)

theorem test_seed_is_always_well_formed : (Instr.init 0xFFFFFFFFFFFFFFFF).WellFormed := trivial

/-! ### Decoding: the words of R73, byte by byte -/

theorem test_decode_init : decode [0x01, 0xEF, 0xCD, 0xAB, 0x89, 0x67, 0x45, 0x23, 0x01, 0x03] =
    .ok (.init 0x0123456789ABCDEF, [0x03]) := by decide

theorem test_decode_new_is_init_zero : decode [0x01, 0, 0, 0, 0, 0, 0, 0, 0] = .ok (.init 0, []) := by decide

theorem test_decode_write : decode [0x02, 0x02, 0, 0, 0, 0, 0, 0, 0, 0x61, 0x62, 0x04] =
    .ok (.write [0x61, 0x62], [0x04]) := by decide

theorem test_decode_finish : decode [0x03, 0x04] = .ok (.finish, [0x04]) := by decide

theorem test_decode_finish128 : decode [0x04] = .ok (.finish128, []) := by decide

theorem test_decode_illegal_opcodes : decode [0x00] = .error (.illegalOpcode 0x00) ∧
    decode [0x05, 0x03] = .error (.illegalOpcode 0x05) ∧ decode [0xFF] = .error (.illegalOpcode 0xFF) := by decide

theorem test_decode_incomplete : decode [0x01, 0, 0, 0, 0, 0, 0, 0] = .error .incomplete ∧
    decode [0x02, 0x02, 0, 0, 0, 0, 0, 0, 0, 0x61] = .error .incomplete ∧ decode [] = .error .incomplete := by decide

/-- LEN counts from its least significant byte (R64): 0x0100 bytes are awaited here, not 1. -/
theorem test_decode_len_byte_order : decode [0x02, 0, 1, 0, 0, 0, 0, 0, 0, 0x61] = .error .incomplete := by decide

theorem test_encode : encode (.init 0x0123456789ABCDEF) = [0x01, 0xEF, 0xCD, 0xAB, 0x89, 0x67, 0x45, 0x23, 0x01] ∧
    encode (.write [0x61, 0x62]) = [0x02, 0x02, 0, 0, 0, 0, 0, 0, 0, 0x61, 0x62] ∧
    encode (.write []) = [0x02, 0, 0, 0, 0, 0, 0, 0, 0] ∧ encode .finish = [0x03] ∧ encode .finish128 = [0x04] ∧
    encode .new = [0x01, 0, 0, 0, 0, 0, 0, 0, 0] := by decide

theorem test_table_words : decodeTableWord 72 0x0123456789ABCDEF01 = some (.init 0x0123456789ABCDEF) ∧
    decodeTableWord 8 0x01 = some (.init 0) ∧ decodeTableWord 72 0x0202 = some (.write [0, 0]) ∧
    decodeTableWord 8 0x03 = some .finish ∧ decodeTableWord 8 0x04 = some .finish128 ∧
    decodeTableWord 8 0x05 = none := by decide

theorem test_withFetchWord_runs :
    (next? (step ((blank .m128).withFetchWord 8 0x04))).map (fun t => (t.input, t.output)) = some ([], [0x02]) ∧
    (next? (step ((blank .m64).withFetchWord 72 0x01))).map (fun t => (t.v.v0, t.initd)) =
      some (0x52BC33FEDBE4CBB5, true) := by decide

/-! ### Primitives (95_test_vectors.md section 2.1) -/

theorem test_arithmetic_wraps : (0xFFFFFFFFFFFFFFF0 : Word) + 0x20 = 0x10 ∧ (0 : Word) - 0xC83A91E1 = 0xFFFFFFFF37C56E1F ∧
    (0x3736353433323130 : Word) * 0xD6D018F5 = 0xC9135DA7CAA592F0 ∧ (0xFF00 : Word) ^^^ 0x0FF0 = 0xF0F0 := by decide

theorem test_rotr : rotr 0x1BCF91A6A68A5EA5 29 = 0x3452F528DE7C8D35 ∧ rotr 1 1 = 0x8000000000000000 ∧ rotr 1 63 = 2 := by
  decide

theorem test_reads_are_little_endian : inRead [0x32, 0x33, 0x34, 0x35, 0x36, 0x37, 0x38, 0x39] 0 8 = 0x3938373635343332 ∧
    inRead [0xF1, 0xFE, 0x0B, 0x18] 0 4 = 0x180BFEF1 ∧ inRead [0xFF, 0xFF] 0 2 = 0xFFFF ∧ inRead [0x32] 0 1 = 0x32 := by
  decide

/-- R87: `bounded_copy("abc", 1, 5, 2)` on a zero buffer. -/
theorem test_boundedCopy : boundedCopy [0x61, 0x62, 0x63] 1 5 2 Memory.zeroed = some [(5, 0x62), (6, 0x63)] ∧
    boundedCopy (digits 32) 0 0 32 Memory.zeroed = none := by decide

/-- Writing 0 removes the cell. -/
theorem test_memory_stays_canonical : Memory.write [(3, 7), (9, 1)] 3 0 = [(9, 1)] ∧ Memory.write [(9, 1)] 3 7 = [(3, 7), (9, 1)] ∧
    State.reset.buf.wf = true := by decide

/-! ### INIT and NEW (worked examples of R101 to R103) -/

theorem test_init_m64 : (next? (exec (.init 0xFFFFFFFFFFFFFFFF) (blank .m64))).map (fun t => (t.v.v3, t.vseed, t.total, t.initd)) =
    some (0x52BC33FE0514B2C0, 0x52BC33FE0514B2C0, 0, true) := by decide

theorem test_init_m128 : (next? (exec (.init 0x0123456789ABCDEF) (blank .m128))).map (fun t => (t.v, t.vseed, t.output)) =
    some (⟨0xE2EEF8CF6F11D506, 0xE7176EB277E6A18E, 0x06FFF247AE5414F0, 0xEF2121555B8EC6E4⟩, 5, [0x00]) := by decide

theorem test_new_m128 : (next? (exec .new (blank .m128))).map (fun t => t.v) =
    some ⟨0xDAF812FADE1589FB, 0x40F9D9A67898EB79, 0x60E25D3BAF065EDB, 0xE72A3B80CA927BD9⟩ := by decide

theorem test_new_m64 : (next? (exec .new (running .m64 lanes [] 77))).map (fun t => (t.v.v1, t.vseed, t.total)) =
    some (0x52BC33FEDBE4CBB5, 0x52BC33FEDBE4CBB5, 0) := by decide

/-! ### WRITE (worked example of R110, program P3 and section 2.7) -/

theorem test_write_one_block : (next? (exec (.write (digits 32)) ((running .m64 (seedLanes .m64 0) [] 0)))).map
    (fun t => (t.v, t.total, t.vseed)) =
    some (⟨0x870F2927BA6158EA, 0xE1A950EE827AF6AE, 0x6C89D487AD0835A1, 0x370FB93DBDF371F4⟩, 32, 5) := by decide

/-- P3, command 6: 100 bytes after 5 buffered ones: one block from the buffer, two from the payload, 9 left over, and the
dead cells as the spec's table gives them. -/
theorem test_write_through_buffer : (next? (exec (.write ((digits 105).drop 5))
    (running .m64 (seedLanes .m64 1) (putCells [] 0 (digits 5)) 5))).map (fun t => (t.v, t.total, memBytes t.buf 0 32)) =
    some (⟨0x4AE97CD7C1338BDE, 0x19ABB2AD1C0DC6E5, 0x61D570A058F95DFA, 0x962E95EE00DC46B8⟩, 105,
      [0x36, 0x37, 0x38, 0x39, 0x30, 0x31, 0x32, 0x33, 0x34, 0x39, 0x30, 0x31, 0x32, 0x33, 0x34, 0x35, 0x36, 0x37, 0x38,
        0x39, 0x30, 0x31, 0x32, 0x33, 0x34, 0x35, 0x36, 0x37, 0x38, 0x39, 0x30, 0x31]) := by decide

/-- Section 2.7: at `TOTAL = 2^64 - 2` two more bytes are refused and one is taken, into `BUF[30]`. -/
theorem test_write_at_the_limit :
    (next? (exec (.write [1, 2]) (running .m128 lanes [] 0xFFFFFFFFFFFFFFFE))).map (fun t => (t.total, t.buf, t.output)) =
      some (0xFFFFFFFFFFFFFFFE, [], [0x04]) ∧
    (next? (exec (.write [1]) (running .m128 lanes [] 0xFFFFFFFFFFFFFFFE))).map (fun t => (t.total, t.buf, t.output)) =
      some (0xFFFFFFFFFFFFFFFF, [(30, 1)], [0x00]) := by decide

/-- Corner block of section 2.2: 32 bytes `FF`, seed 0, `M128`. -/
theorem test_mix_block_m128 : mixStream .m128 (List.replicate 32 0xFF) 1 (seedLanes .m128 0) =
    ⟨0x0FBA1E1286C6F6AB, 0x79AAB872D2614908, 0xA8F713158DD9E084, 0x537B121A0BB3250C⟩ := by decide

/-! ### FINISH and FINISH128 -/

/-- The last step of P3's command 4: 5 bytes buffered, seed 1 (R174's example of a short stream). -/
theorem test_finish_m64 : (next? (exec .finish (running .m64 (seedLanes .m64 1) (putCells [] 0 (digits 5)) 5))).map
    (fun t => t.output) = some [0x00, 0xC3, 0x5B, 0x90, 0x36, 0xA1, 0xB8, 0x36, 0x21] := by decide

/-- The last step of S3: `FINISH` on `M128` gives the first word. -/
theorem test_finish_m128 : (next? (exec .finish (running .m128 (streamLanes .m128 0 (digits 63)) (tailMemory (digits 63)) 63))).map
    (fun t => t.output) = some [0x00, 0xC7, 0x7C, 0xE2, 0xBF, 0xA4, 0xED, 0x9F, 0x9B] := by decide

/-- P5, command 6: 3 bytes, seed 2^64 - 1. -/
theorem test_finish128_m128 : (next? (exec .finish128 (running .m128 (seedLanes .m128 0xFFFFFFFFFFFFFFFF)
    (putCells [] 0 [0xF1, 0xFE, 0x0B]) 3))).map (fun t => t.output) =
    some [0x00, 0x1B, 0x5C, 0x72, 0x9F, 0x61, 0xE9, 0x1D, 0x9A, 0xA8, 0x4C, 0x12, 0x83, 0x5C, 0xC5, 0xDC, 0xC5] := by decide

/-- R194: on `M64` before `INIT` the variant test decides. -/
theorem test_finish128_m64 : (next? (exec .finish128 (blank .m64))).map (fun t => (t.output, t.total)) = some ([0x03], 45) := by
  decide

/-- The source vectors S1 and S2, and the empty streams of R173. -/
theorem test_digest64 : digest64 0 (digits 63) = 0xAD4B7006AE3D756B ∧ digest64 1 (digits 63) = 0xDFB8B9F41C480D3B ∧
    digest64 0 [] = 0x705FB008071E967D ∧ digest64 1 [] = 0xE6F660FE36B85A05 := by decide

/-- The source vectors S3 and S4 with the spec's derived second words, and the empty stream of seed 0. -/
theorem test_digest128 : digest128 0 (digits 63) = (0x9B9FEDA4BFE27CC7, 0x97A27450ACB24805) ∧
    digest128 1 (digits 63) = (0x7F9D1938B8CDA345, 0xEFEC147A868DD6BD) ∧
    digest128 0 [] = (0x0005F3CA3D41D1CB, 0x4606B14684C65FB6) := by decide

/-! ### Steps -/

theorem test_step_illegal_opcode : (next? (step { blank .m64 with input := [0x00, 0x03] })).map (fun t => (t.input, t.output)) =
    some ([0x03], [0x01]) := by decide

theorem test_step_waits : (next? (step { blank .m64 with input := [0x02, 0x01, 0, 0, 0, 0, 0, 0, 0] })).map
    (fun t => (t.input.length, t.output)) = some (9, []) := by decide

/-- A refused `WRITE` consumes its payload (R68). -/
theorem test_step_refused_write_consumes : (next? (step { blank .m64 with input := encode (.write [0x61, 0x62]) ++ [0x04] })).map
    (fun t => (t.input, t.output)) = some ([0x04], [0x02]) := by decide

/-! ### The assembler (R72, R73) -/

theorem test_assembler_comment_and_blank : assemble ["  ; nothing here".toList, "".toList, "FINISH ; done".toList] = .ok [0x03] := by
  decide

theorem test_assembler_text_and_hex : assembleLine "WRITE \"a;b\"".toList = .ok (some (.write [0x61, 0x3B, 0x62])) ∧
    assembleLine "WRITE x\"F1 fe0B\" ; tail".toList = .ok (some (.write [0xF1, 0xFE, 0x0B])) ∧
    assembleLine "WRITE x\"\"".toList = .ok (some (.write [])) := by decide

theorem test_assembler_refuses : assembleLine "INIT 18446744073709551616".toList = .error .seedTooLarge ∧
    assembleLine "INIT 18446744073709551615".toList = .ok (some (.init 0xFFFFFFFFFFFFFFFF)) ∧
    assembleLine "init 1".toList = .error .unknownMnemonic ∧ assembleLine "INIT".toList = .error .badOperand ∧
    assembleLine "WRITE \"a\\b\"".toList = .error .badOperand := by decide

/-! ### Witnesses: the hypotheses of each obligation are met together -/

theorem witness_UninitialisedValuesAreUnobservable :
    ∃ s t : State, s.initd = false ∧ t.initd = false ∧ s.variant = t.variant ∧ s.input = t.input ∧ s.output = t.output ∧
      s ≠ t ∧ s.input = encode (.init 7) :=
  ⟨{ blank .m64 with input := encode (.init 7) }, { blank .m64 with v := lanes, buf := [], input := encode (.init 7) },
    by decide⟩

theorem witness_InitOnM64 : (running .m64 lanes [] 3).variant = .m64 ∧ (blank .m64).variant = .m64 := by decide

theorem witness_InitOnM128 : (running .m128 lanes [] 3).variant = .m128 ∧ (blank .m128).variant = .m128 := by decide

theorem witness_NewIsInitZero : (running .m64 lanes [] 3).variant = .m64 ∧ (blank .m128).variant = .m128 := by decide

theorem witness_InitForgetsTheOldAccumulator : ∃ s t : State, s.variant = t.variant ∧ s ≠ t ∧ s.variant = .m64 :=
  ⟨running .m64 lanes [] 3, blank .m64, by decide⟩

theorem witness_WriteBeforeInitIsRefused : (blank .m64).initd = false ∧ (blank .m128).initd = false := by decide

/-- Both clauses, one byte apart. -/
theorem witness_TotalNeverWraps : (running .m64 lanes [] 0xFFFFFFFFFFFFFFFE).initd = true ∧
    2 ^ 64 - 1 < (running .m64 lanes [] 0xFFFFFFFFFFFFFFFE).total.toNat + [(1 : Byte), 2].length ∧
    (running .m64 lanes [] 0xFFFFFFFFFFFFFFFE).total.toNat + [(1 : Byte)].length ≤ 2 ^ 64 - 1 := by decide

theorem witness_WriteCompletes : (running .m64 lanes [] 0xFFFFFFFFFFFFFFFE).initd = true ∧
    (running .m64 lanes [] 0xFFFFFFFFFFFFFFFE).total.toNat + [(1 : Byte)].length ≤ 2 ^ 64 - 1 := by decide

theorem witness_EmptyWriteChangesNothing : (running .m64 lanes [] 0xFFFFFFFFFFFFFFFF).initd = true ∧ (blank .m64).initd = false := by
  decide

/-- Fill 30 and one byte, fill 0 and 31 bytes: the longest that do not complete the block. -/
theorem witness_WriteBuffersShortPayload : ∀ p ∈ [((62 : Word), 1), (64, 31)],
    (running .m64 lanes [(2, 8)] p.1).initd = true ∧ (running .m64 lanes [(2, 8)] p.1).buf.wf = true ∧
    (running .m64 lanes [(2, 8)] p.1).total.toNat + (digits p.2).length ≤ 2 ^ 64 - 1 ∧
    (running .m64 lanes [(2, 8)] p.1).total.toNat % 32 + (digits p.2).length < 32 := by decide

/-- Fill 31 and exactly the byte that completes the block; fill 1 and more than two blocks. -/
theorem witness_WriteCompletesBufferedBlock : ∀ p ∈ [((63 : Word), 1), (33, 70)],
    (running .m128 lanes [(2, 8)] p.1).initd = true ∧ (running .m128 lanes [(2, 8)] p.1).buf.wf = true ∧
    (running .m128 lanes [(2, 8)] p.1).total.toNat + (digits p.2).length ≤ 2 ^ 64 - 1 ∧
    (running .m128 lanes [(2, 8)] p.1).total.toNat % 32 ≠ 0 ∧
    32 ≤ (running .m128 lanes [(2, 8)] p.1).total.toNat % 32 + (digits p.2).length := by decide

theorem witness_WriteMixesAlignedBlocks : ∀ n ∈ [32, 63],
    (running .m128 lanes [(2, 8)] 64).initd = true ∧ (running .m128 lanes [(2, 8)] 64).buf.wf = true ∧
    (running .m128 lanes [(2, 8)] 64).total.toNat + (digits n).length ≤ 2 ^ 64 - 1 ∧
    (running .m128 lanes [(2, 8)] 64).total.toNat % 32 = 0 ∧ 32 ≤ (digits n).length := by decide

/-- The longest legal copy, to the end of the buffer; and each way out of the contract at its boundary. -/
theorem witness_BoundedCopyMovesExactlyItsBytes : Memory.wf [(2, 8)] = true ∧
    (31 < 32 ∧ 0 + 31 ≤ (digits 31).length ∧ 1 + 31 ≤ 32) ∧
    (32 ≤ 32 ∨ (digits 32).length < 0 + 32 ∨ 32 < 0 + 32) ∧ (digits 2).length < 1 + 2 ∧ 32 < 31 + 2 := by decide

theorem witness_WriteIsByteAtATime : (running .m128 lanes [(2, 8)] 33).initd = true ∧
    (running .m128 lanes [(2, 8)] 33).buf.wf = true ∧
    (running .m128 lanes [(2, 8)] 33).total.toNat + (digits 70).length ≤ 2 ^ 64 - 1 := by decide

theorem witness_ChunkingInvariance : (running .m64 lanes [(2, 8)] 33).initd = true ∧
    (running .m64 lanes [(2, 8)] 33).buf.wf = true ∧
    (running .m64 lanes [(2, 8)] 33).total.toNat + ((digits 40).length + (digits 3).length) ≤ 2 ^ 64 - 1 := by decide

/-- The accumulator of a seed and a 3-byte stream, for either variant. -/
theorem represents_three_bytes (variant : Variant) :
    ({ running variant (seedLanes variant 7) [(0, 1), (1, 2), (2, 3)] 3 with vseed := seedWord64 7 } : State).Represents
      7 [1, 2, 3] where
  total := rfl
  lanes := by cases variant <;> rfl
  vseed _ := rfl
  live := by
    show ∀ j, j < 3 → ([1, 2, 3] : List Byte)[j]? = some (Memory.read [(0, 1), (1, 2), (2, 3)] j)
    decide

theorem witness_WriteExtendsTheStream : ∃ s : State, s.initd = true ∧ s.buf.wf = true ∧ s.Represents 7 [1, 2, 3] ∧
    [(1 : Byte), 2, 3].length + (digits 40).length ≤ 2 ^ 64 - 1 :=
  ⟨_, rfl, rfl, represents_three_bytes .m64, by decide⟩

theorem witness_FinishRefusals : (blank .m64).initd = false ∧ (blank .m128).variant = .m128 ∧ (blank .m128).initd = false ∧
    (running .m64 lanes [] 0).variant = .m64 := by decide

theorem witness_FinishOnM64 : (running .m64 lanes [(2, 8)] 31).variant = .m64 ∧ (running .m64 lanes [(2, 8)] 31).initd = true ∧
    (blank .m64).variant = .m64 ∧ (blank .m64).initd = false := by decide

theorem witness_FinishOnM128 : (running .m128 lanes [(2, 8)] 32).variant = .m128 ∧
    (running .m128 lanes [(2, 8)] 32).initd = true ∧ (blank .m128).variant = .m128 ∧ (blank .m128).initd = false ∧
    (blank .m64).variant = .m64 := by decide

/-- The shortest and the longest tail. -/
theorem witness_TailStepsAreTheBitsOfTheTailLength : 0 < 32 ∧ 31 < 32 := by decide

/-- Two accumulators that differ in a dead cell: fill 2, cell 2. -/
theorem witness_FinalisationReadsLiveCellsOnly : ∃ s t : State, s.SameAccumulator t ∧ s.buf ≠ t.buf :=
  ⟨running .m64 lanes [(1, 4), (2, 8)] 34, running .m64 lanes [(1, 4)] 34,
    ⟨rfl, rfl, rfl, rfl, rfl, by show ∀ j, j < 2 → _; decide⟩, by decide⟩

theorem witness_ShortStreamsIgnoreTheOtherLanes : (31 : Word).toNat < 32 ∧
    sameLive ((31 : Word).toNat % 32) [(1, 4), (31, 8)] [(1, 4)] ∧ lanes.v0 = (Lanes.mk 1 2 30 40).v0 ∧
    lanes.v1 = (Lanes.mk 1 2 30 40).v1 ∧ lanes ≠ Lanes.mk 1 2 30 40 := by
  refine ⟨by decide, ?_, by decide⟩
  show ∀ j, j < 31 → _
  decide

theorem witness_EmptyStreamDigest : (blank .m64).variant = .m64 ∧ (blank .m128).variant = .m128 := by decide

theorem witness_FinalisationIsIdempotent : ∀ i ∈ [Instr.finish128, .finish, .finish128], i = .finish ∨ i = .finish128 := by
  decide

theorem witness_FinishDoesNotEndTheStream : (digits 5).length + (digits 100).length ≤ 2 ^ 64 - 1 := by decide

theorem witness_DigestIsAFunctionOfSeedAndStream : [digits 5, [], digits 58].flatten.length ≤ 2 ^ 64 - 1 ∧
    (blank .m128).variant = .m128 := by decide

/-- For the five statements whose one hypothesis is that a command answers a next state: each kind of command does. -/
theorem witness_commands_answer : ∀ i ∈ [Instr.init 7, .write (digits 3), .finish, .finish128, .new],
    (next? (exec i (running .m128 lanes [(2, 8)] 33))).isSome = true ∧ (next? (exec i (blank .m128))).isSome = true := by decide

theorem witness_OneResponsePerCommand : ∃ t, exec .finish128 (running .m128 lanes [(2, 8)] 33) = .next t := ⟨_, rfl⟩

theorem witness_OnlyInitSetsInitd : ∃ t, exec (.init 7) (blank .m128) = .next t := ⟨_, rfl⟩

theorem witness_AccessByCommand : ∃ t, exec (.write [1]) (running .m128 lanes [(2, 8)] 33) = .next t ∧
    ∀ seed, (Instr.write [1]).core ≠ .init seed := ⟨_, rfl, by intro seed h; cases h⟩

theorem witness_NoSeedLaneOnM128 : (running .m128 lanes [(2, 8)] 33).variant = .m128 ∧
    ∃ t, exec (.write [1]) (running .m128 lanes [(2, 8)] 33) = .next t := ⟨rfl, _, rfl⟩

theorem witness_EveryStepKeepsTheInvariant : ∃ s t : State, s.Inv ∧ s.initd = true ∧ step s = .next t ∧ s ≠ t := by
  refine ⟨{ { running .m64 (seedLanes .m64 7) [(0, 1), (1, 2), (2, 3)] 3 with vseed := seedWord64 7 } with input := [0x03] },
    _, ⟨rfl, fun _ => ⟨7, [1, 2, 3], ?_⟩⟩, rfl, rfl, by decide⟩
  exact ⟨rfl, rfl, fun _ => rfl, (represents_three_bytes .m64).live⟩

theorem witness_DecodeOfEncode : (Instr.write (digits 3)).WellFormed ∧ Instr.new.WellFormed := by
  constructor
  · show (digits 3).length < 2 ^ 64
    decide
  · trivial

theorem witness_EncodeOfDecode : decode [0x02, 0x01, 0, 0, 0, 0, 0, 0, 0, 0x61, 0x03] = .ok (.write [0x61], [0x03]) := by decide

theorem witness_StepRunsTheDecodedCommand :
    decode ({ blank .m64 with input := [0x03, 0x04] } : State).input = .ok (.finish, [0x04]) := by decide

/-- The two ends of the upper range, and 0. -/
theorem witness_IllegalOpcodeIsAnsweredAndSkipped : ∀ op ∈ [(0x00 : Byte), 0x05, 0xFF],
    (op = 0x00 ∨ 0x05 ≤ op.toNat) ∧ ({ blank .m64 with input := [op, 0x03] } : State).input = op :: [0x03] := by decide

/-- Exactly one whole command in the stream, for each class of opcode. -/
theorem witness_StepConsumesTheCommandLength : ∀ input ∈ [encode (.init 7), encode (.write [1, 2]), [0x03], [0x04], [0xFF]],
    ∃ op rest, ({ blank .m64 with input := input } : State).input = op :: rest ∧
      (if op = 0x01 then 9 else if op = 0x02 then 9 + (leWord (rest.take 8)).toNat else 1) ≤ input.length := by
  intro input h
  simp only [List.mem_cons, List.not_mem_nil, or_false] at h
  rcases h with rfl | rfl | rfl | rfl | rfl <;> exact ⟨_, _, rfl, by decide⟩

/-- One byte short of a command, for each of the two clauses; and the empty stream. -/
theorem witness_IncompleteCommandWaits : (blank .m64).input = [] ∧
    ((0x01 : Byte) = 0x01 ∧ [(0 : Byte), 0, 0, 0, 0, 0, 0].length < 8) ∧
    ((0x02 : Byte) = 0x02 ∧
      [(2 : Byte), 0, 0, 0, 0, 0, 0, 0, 9].length < 8 + (leWord ([(2 : Byte), 0, 0, 0, 0, 0, 0, 0, 9].take 8)).toNat) := by
  decide

theorem witness_CommandStreamRunsInOrder : ∀ i ∈ [Instr.new, .write [1, 2], .finish128], i.WellFormed := by
  intro i h
  simp only [List.mem_cons, List.not_mem_nil, or_false] at h
  rcases h with rfl | rfl | rfl
  · trivial
  · show 2 < 2 ^ 64
    decide
  · trivial

theorem witness_PresentingBytesLaterChangesNothingEarlier : ∃ s t : State, step s = .next t ∧ t.input ≠ s.input :=
  ⟨{ blank .m64 with input := [0x03] }, _, rfl, by decide⟩

theorem witness_RotateRightMovesBits : 1 ≤ 1 ∧ 1 ≤ 63 ∧ 63 ≤ 63 ∧ 63 < 64 := by decide

theorem witness_WordAndBytesAgree : [(1 : Byte), 2, 3, 4, 5, 6, 7, 8].length = 8 := by decide

theorem witness_NarrowReadsAreLowBits : 4 ≤ 8 ∧ 8 ≤ 8 ∧ 0 ≤ 8 := by decide

theorem witness_EqualContentsAreEqualMemory : Memory.wf [(0, 1), (31, 2)] = true ∧ Memory.wf (Memory.write [(31, 2)] 0 1) = true ∧
    ∀ a, Memory.read [(0, 1), (31, 2)] a = Memory.read (Memory.write [(31, 2)] 0 1) a := ⟨by decide, by decide, fun _ => rfl⟩

theorem witness_AssembledCommandsFitTheirFields : assembleLine "NEW".toList = .ok (some .new) ∧
    literal "18446744073709551616".toList = some (2 ^ 64) ∧ payloadOperand "\"ab\"".toList = some [0x61, 0x62] := by decide

theorem witness_LinesAssembleToTheirBytes : assembleLine "NEW".toList = .ok (some .new) ∧
    assemble ["FINISH".toList] = .ok [0x03] := by decide

end Sys2Proof.Tests
end

section
/-! PROOFS. The length of a command and the step that consumes it (30_encoding.md R67 to R70): what the decoder leaves of
a stream that holds a whole command, and that every command answers and leaves the rest of the stream alone. -/

namespace Sys2Proof

/-! ### The decoder consumes the command's length -/

/-- Format `S` with its field present (R63). -/
theorem decodeSeedFormat_of_le {rest : List Byte} (h : 8 ≤ rest.length) :
    decodeSeedFormat rest = .ok (.init (leWord (rest.take 8)), rest.drop 8) :=
  if_neg (Nat.not_lt.2 h)

/-- Format `W` with the field `LEN` and as many payload bytes as it counts present (R64). -/
theorem decodeWriteFormat_of_le {rest : List Byte} (h : 8 + (leWord (rest.take 8)).toNat ≤ rest.length) :
    decodeWriteFormat rest =
      .ok (.write ((rest.drop 8).take (leWord (rest.take 8)).toNat), rest.drop (8 + (leWord (rest.take 8)).toNat)) := by
  have hhead : ¬ rest.length < 8 := by omega
  have hbody : ¬ (rest.drop 8).length < (leWord (rest.take 8)).toNat := by rw [List.length_drop]; omega
  simp only [decodeWriteFormat, hhead, hbody, if_false, List.drop_drop]

theorem commandLength_init (len : Nat) : commandLength 0x01 len = 9 := rfl

theorem commandLength_write (len : Nat) : commandLength 0x02 len = 9 + len := rfl

/-- Every opcode but those of `INIT` and `WRITE`, the illegal ones among them, is a command of one byte (R68). -/
theorem commandLength_of_ne {op : Byte} (len : Nat) (h1 : op ≠ 0x01) (h2 : op ≠ 0x02) : commandLength op len = 1 :=
  (if_neg h1).trans (if_neg h2)

/-- A stream that is at least as long as its first command decodes to that command and the bytes behind its length, or
begins with an illegal opcode, whose length is 1 (R67, R68). -/
theorem decode_of_commandLength_le {op : Byte} {rest : List Byte}
    (h : commandLength op (leWord (rest.take 8)).toNat ≤ (op :: rest).length) :
    (∃ i, decode (op :: rest) = .ok (i, (op :: rest).drop (commandLength op (leWord (rest.take 8)).toNat))) ∨
    (decode (op :: rest) = .error (.illegalOpcode op) ∧ commandLength op (leWord (rest.take 8)).toNat = 1) := by
  rw [List.length_cons] at h
  by_cases h1 : op = 0x01
  · subst h1
    rw [commandLength_init] at h
    exact .inl ⟨_, decodeSeedFormat_of_le (by omega)⟩
  by_cases h2 : op = 0x02
  · subst h2
    rw [commandLength_write] at h ⊢
    rw [decode_write, decodeWriteFormat_of_le (by omega), Nat.add_right_comm 8 1, List.drop_succ_cons]
    exact .inl ⟨_, rfl⟩
  rw [commandLength_of_ne _ h1 h2]
  by_cases h3 : op = 0x03
  · exact .inl ⟨_, h3 ▸ decode_finish rest⟩
  by_cases h4 : op = 0x04
  · exact .inl ⟨_, h4 ▸ decode_finish128 rest⟩
  exact .inr ⟨decode_illegal rest h1 h2 h3 h4, rfl⟩

namespace Machine

/-! ### `WRITE` writes the accumulator only -/

/-- Steps 3 and 4 of R111 on any buffer, canonical or not: they answer, and write lanes, `BUF` and `TOTAL` only. -/
theorem absorbAligned_frame {payload : List Byte} {p : Nat} (s : State) (hp : p ≤ payload.length) :
    ∃ l m n, absorbAligned payload p s = some { s with v := l, buf := m, total := n } := by
  unfold absorbAligned
  by_cases h : p + 32 * ((payload.length - p) / 32) < payload.length
  · have hcopy := boundedCopy_eq (c := payload) (s := p + 32 * ((payload.length - p) / 32)) (d := 0)
      (n := payload.length - (p + 32 * ((payload.length - p) / 32))) s.buf (by omega) (by omega) (by omega)
    simp only [h, if_true, State.withLanes_buf, State.addTotal_buf, hcopy]
    exact ⟨_, _, _, rfl⟩
  · simp only [h, if_false]
    exact ⟨_, s.buf, _, rfl⟩

/-- R111 on any buffer, canonical or not: it answers, and writes lanes, `BUF` and `TOTAL` only (R32, R118). -/
theorem absorb_frame (payload : List Byte) (s : State) :
    ∃ l m n, absorb payload s = some { s with v := l, buf := m, total := n } := by
  by_cases h0 : s.fill = 0
  · rw [absorb_of_aligned h0]
    exact absorbAligned_frame s (Nat.zero_le _)
  by_cases hs : s.fill + payload.length < 32
  · exact ⟨_, _, _, absorb_of_short h0 hs⟩
  · rw [absorb_of_full h0 (Nat.not_lt.1 hs)]
    exact absorbAligned_frame _ (by omega)

/-! ### Every command answers -/

/-- An outcome from `s` that is a next state with one response emitted and the command stream as it was (R70). -/
def Answers (s : State) (o : Host.Outcome State Fault Refusal) : Prop :=
  ∃ (t : State) (r : Response), o = .next t ∧ t.input = s.input ∧ t.output = s.output ++ r.bytes

theorem answers_respond {s t : State} (r : Response) (hin : t.input = s.input) (hout : t.output = s.output) :
    Answers s (.next (t.respond r)) :=
  ⟨t.respond r, r, rfl, hin, by rw [State.respond_output, hout]⟩

theorem answers_refuse (s : State) (status : Status) : Answers s (.next (s.refuse status)) :=
  answers_respond _ rfl rfl

theorem answers_respondOk (s : State) (digest : List Word) : Answers s (.next (s.respondOk digest)) :=
  answers_respond _ rfl rfl

theorem execInit_answers (seed : Word) (s : State) : Answers s (execInit seed s) :=
  answers_respond _ (initAccumulator_input seed s) (initAccumulator_output seed s)

theorem execWrite_answers (payload : List Byte) (s : State) : Answers s (execWrite payload s) := by
  unfold execWrite
  split
  · exact answers_refuse s _
  split
  · exact answers_refuse s _
  obtain ⟨l, m, n, habsorb⟩ := absorb_frame payload s
  rw [habsorb]
  exact answers_respond _ rfl rfl

theorem execFinish_answers (s : State) : Answers s (execFinish s) := by
  unfold execFinish
  split
  · exact answers_refuse s _
  · exact answers_respondOk s _

theorem execFinish128_answers (s : State) : Answers s (execFinish128 s) := by
  unfold execFinish128
  split
  · exact answers_refuse s _
  split
  · exact answers_refuse s _
  · exact answers_respondOk s _

/-- Every command, accepted or refused, answers and leaves the bytes behind it unread (R70, R195). -/
theorem exec_answers (i : Instr) (s : State) : Answers s (exec i s) := by
  cases i with
  | init seed => exact execInit_answers seed s
  | write payload => exact execWrite_answers payload s
  | finish => exact execFinish_answers s
  | finish128 => exact execFinish128_answers s
  | new => exact execInit_answers 0 s

/-! ### The step -/

theorem step_of_decode_ok {s : State} {i : Instr} {rest : List Byte} (h : decode s.input = .ok (i, rest)) :
    step s = exec i (s.withInput rest) := by
  simp only [step, fetch, h]

theorem step_of_decode_illegal {s : State} {op : Byte} (h : decode s.input = .error (.illegalOpcode op)) :
    step s = .next ((s.withInput (s.input.drop 1)).refuse .illegalCommand) := by
  simp only [step, fetch, h, illegalCommand]

/-- A step from a stream that holds its first command whole answers from the state with exactly that command's bytes
consumed (R68). -/
theorem step_answers {s : State} {op : Byte} {rest : List Byte} (hin : s.input = op :: rest)
    (hlen : commandLength op (leWord (rest.take 8)).toNat ≤ s.input.length) :
    Answers (s.withInput (s.input.drop (commandLength op (leWord (rest.take 8)).toNat))) (step s) := by
  rw [hin] at hlen
  obtain ⟨i, hdec⟩ | ⟨hdec, hone⟩ := decode_of_commandLength_le hlen
  · rw [← hin] at hdec
    rw [step_of_decode_ok hdec]
    exact exec_answers i _
  · rw [← hin] at hdec
    rw [step_of_decode_illegal hdec, hone]
    exact answers_refuse _ _

/-- Settles O44: the decoder leaves what stands behind the command's length, and every command, refused or not, answers
with at least its status byte and reads no further. -/
theorem stepConsumesTheCommandLength : Obligations.StepConsumesTheCommandLength := by
  intro s op rest hin length hlen
  obtain ⟨t, r, hstep, htin, htout⟩ := step_answers hin hlen
  refine ⟨t, hstep, htin, ?_⟩
  rw [htout, List.length_append]
  exact Nat.lt_add_of_pos_right (Nat.succ_pos _)

end Machine

end Sys2Proof
end

section
/-! PROOFS. The primitives on words (40_primitives.md): which bit of its operand a rotation puts where (R84). -/

namespace Sys2Proof

/-- Bit `i` of a rotation comes from the right shift below bit `64 − r` and from the left shift from there on (R84). -/
theorem getLsbD_rotr (x : Word) (r : Nat) {i : Nat} (hi : i < 64) :
    (rotr x r).getLsbD i = (x.getLsbD (r + i) || (!decide (i < 64 - r) && x.getLsbD (i - (64 - r)))) := by
  simp only [rotr, BitVec.getLsbD_or, BitVec.getLsbD_ushiftRight, BitVec.getLsbD_shiftLeft, hi, decide_true,
    Bool.true_and]

/-- Bits that do not cross the upper end of the word move down by `r`. -/
theorem getLsbD_rotr_of_lt (x : Word) {r i : Nat} (h : i + r < 64) : (rotr x r).getLsbD i = x.getLsbD (i + r) := by
  have hlow : i < 64 - r := by omega
  rw [getLsbD_rotr x r (by omega), decide_eq_true hlow, Bool.not_true, Bool.false_and, Bool.or_false, Nat.add_comm]

/-- The low `r` bits wrap round to the top. -/
theorem getLsbD_rotr_of_ge (x : Word) {r i : Nat} (hr : r ≤ 64) (hi : i < 64) (h : 64 ≤ i + r) :
    (rotr x r).getLsbD i = x.getLsbD (i + r - 64) := by
  have hhigh : ¬ i < 64 - r := by omega
  have hidx : i - (64 - r) = i + r - 64 := by omega
  rw [getLsbD_rotr x r hi, BitVec.getLsbD_of_ge x (r + i) (by omega), decide_eq_false hhigh, Bool.not_false,
    Bool.true_and, Bool.false_or, hidx]

/-- Settles O48: by whether `i + r` stays inside the word or wraps round. -/
theorem rotateRightMovesBits : Obligations.RotateRightMovesBits := by
  intro x r i _ hr hi
  by_cases h : i + r < 64
  · rw [getLsbD_rotr_of_lt x h, Nat.mod_eq_of_lt h]
  · have hge : 64 ≤ i + r := Nat.le_of_not_lt h
    have hwrap : (i + r) % 64 = i + r - 64 := by omega
    rw [getLsbD_rotr_of_ge x (by omega) hi hge, hwrap]

end Sys2Proof
end

section
/-! PROOFS. `INIT` and `NEW` (41_init.md R100 to R105): the exact effect of each on either variant, and that after an
`INIT` nothing of the state before it reaches a response or the accumulator. -/

namespace Sys2Proof.Machine

/-! ### The effect of `INIT` and `NEW` -/

/-- The fresh accumulator on `M64` (R100, R101). -/
theorem initAccumulator_of_m64 (seed : Word) {s : State} (h : s.variant = .m64) :
    initAccumulator seed s = { s with
      v := seedLanes .m64 seed, vseed := seedWord64 seed, buf := Memory.zeroed, total := 0, initd := true } := by
  have hlanes : initLanes seed s = { s with v := seedLanes .m64 seed, vseed := seedWord64 seed } := by
    simp only [initLanes, h, initLanes64, constants, seedLanes, seedWord64]
  simp only [initAccumulator, hlanes, State.withBuf, State.setInitd]

/-- The fresh accumulator on `M128` (R100, R102), where `VSEED` is not written. -/
theorem initAccumulator_of_m128 (seed : Word) {s : State} (h : s.variant = .m128) :
    initAccumulator seed s = { s with
      v := seedLanes .m128 seed, buf := Memory.zeroed, total := 0, initd := true } := by
  have hlanes : initLanes seed s = { s with v := seedLanes .m128 seed } := by
    simp only [initLanes, h, initLanes128, constants, seedLanes]
  simp only [initAccumulator, hlanes, State.withBuf, State.setInitd]

theorem exec_init (seed : Word) (s : State) : exec (.init seed) s = .next ((initAccumulator seed s).respondOk []) := rfl

theorem exec_init_of_m64 (seed : Word) {s : State} (h : s.variant = .m64) :
    exec (.init seed) s = .next { s with
      v := seedLanes .m64 seed, vseed := seedWord64 seed, buf := Memory.zeroed, total := 0, initd := true,
      output := s.output ++ [0x00] } := by
  rw [exec_init, initAccumulator_of_m64 seed h]
  rfl

theorem exec_init_of_m128 (seed : Word) {s : State} (h : s.variant = .m128) :
    exec (.init seed) s = .next { s with
      v := seedLanes .m128 seed, buf := Memory.zeroed, total := 0, initd := true, output := s.output ++ [0x00] } := by
  rw [exec_init, initAccumulator_of_m128 seed h]
  rfl

/-- `NEW` and `INIT 0` are one command under two names (R103). -/
theorem exec_new (s : State) : exec .new s = exec (.init 0) s := rfl

theorem seedWord64_zero : seedWord64 0 = 0x52BC33FEDBE4CBB5 := by decide

theorem seedLanes_m128_zero :
    seedLanes .m128 0 = ⟨0xDAF812FADE1589FB, 0x40F9D9A67898EB79, 0x60E25D3BAF065EDB, 0xE72A3B80CA927BD9⟩ := by decide

/-- Settles O4: the lanes and `VSEED` are the seed word of `M64`, whatever the state before. -/
theorem initOnM64 : Obligations.InitOnM64 := fun seed _ h => ⟨exec_init_of_m64 seed h, Memory.read_zeroed⟩

/-- Settles O5: the lanes are the four seed expressions of `M128`, whatever the state before. -/
theorem initOnM128 : Obligations.InitOnM128 := fun seed _ h => ⟨exec_init_of_m128 seed h, Memory.read_zeroed⟩

/-- Settles O6: the effect is that of `INIT 0` on either variant, with the seed expressions evaluated at seed 0. -/
theorem newIsInitZero : Obligations.NewIsInitZero := by
  refine ⟨by decide, rfl, fun s => ⟨exec_new s, fun h => ?_, fun h => ?_⟩⟩
  · rw [exec_new, exec_init_of_m64 0 h, seedLanes, seedWord64_zero]
  · rw [exec_new, exec_init_of_m128 0 h, seedLanes_m128_zero]

/-! ### What `WRITE` reads -/

/-- The state with other contents in fields that `WRITE` neither reads nor, but for its response, writes: `VSEED`, and
the model's own counter and streams. -/
def State.withSurroundings (s : State) (vseed : Word) (resets : Nat) (input output : List Byte) : State :=
  { s with vseed := vseed, resets := resets, input := input, output := output }

@[simp] theorem State.withSurroundings_buf (s : State) (vseed : Word) (resets : Nat) (input output : List Byte) :
    (s.withSurroundings vseed resets input output).buf = s.buf := rfl
@[simp] theorem State.withSurroundings_fill (s : State) (vseed : Word) (resets : Nat) (input output : List Byte) :
    (s.withSurroundings vseed resets input output).fill = s.fill := rfl

/-- Steps 3 and 4 of R111 carry the surroundings along unread. -/
theorem absorbAligned_withSurroundings (payload : List Byte) (p : Nat) (s : State) (vseed : Word) (resets : Nat)
    (input output : List Byte) :
    absorbAligned payload p (s.withSurroundings vseed resets input output) =
      (absorbAligned payload p s).map (·.withSurroundings vseed resets input output) := by
  simp only [absorbAligned, State.withLanes_buf, State.addTotal_buf, State.withSurroundings_buf]
  split
  · generalize boundedCopy payload _ 0 _ s.buf = copied
    cases copied with
    | none => rfl
    | some m => rfl
  · rfl

/-- R111 carries the surroundings along unread (R32). -/
theorem absorb_withSurroundings (payload : List Byte) (s : State) (vseed : Word) (resets : Nat)
    (input output : List Byte) :
    absorb payload (s.withSurroundings vseed resets input output) =
      (absorb payload s).map (·.withSurroundings vseed resets input output) := by
  by_cases h0 : s.fill = 0
  · rw [absorb_of_aligned h0, absorb_of_aligned (by simpa using h0), absorbAligned_withSurroundings]
  by_cases hs : s.fill + payload.length < 32
  · rw [absorb_of_short h0 hs, absorb_of_short (by simpa using h0) (by simpa using hs)]
    rfl
  · have hs : 32 ≤ s.fill + payload.length := Nat.not_lt.1 hs
    rw [absorb_of_full h0 hs, absorb_of_full (by simpa using h0) (by simpa using hs), ← absorbAligned_withSurroundings]
    rfl

/-! ### Two engines side by side -/

/-- The same registers in every cell, dead ones too; `VSEED` counts on `M64` only, where it exists (R22). -/
structure State.SameRegisters (s t : State) : Prop where
  variant : s.variant = t.variant
  v : s.v = t.v
  vseed : s.variant = .m64 → s.vseed = t.vseed
  buf : s.buf = t.buf
  total : s.total = t.total
  initd : s.initd = t.initd

/-- Outcomes from `s` and from `t` that are next states with the same registers, each after the same bytes emitted. -/
def AnswerAlike (s t : State) (o p : Host.Outcome State Fault Refusal) : Prop :=
  ∃ (s' t' : State) (bytes : List Byte), o = .next s' ∧ p = .next t' ∧
    s'.output = s.output ++ bytes ∧ t'.output = t.output ++ bytes ∧ s'.variant = s.variant ∧ s'.SameRegisters t'

namespace State.SameRegisters

variable {s t : State}

theorem respond (h : s.SameRegisters t) (r : Response) : (s.respond r).SameRegisters (t.respond r) :=
  ⟨h.variant, h.v, h.vseed, h.buf, h.total, h.initd⟩

/-- What differs between two states with the same registers is their surroundings. -/
theorem eq_withSurroundings (h : s.SameRegisters t) : t = s.withSurroundings t.vseed t.resets t.input t.output := by
  obtain ⟨hvariant, hv, -, hbuf, htotal, hinitd⟩ := h
  rw [State.withSurroundings, hvariant, hv, hbuf, htotal, hinitd]

/-- `FINISH` reads registers only, and `VSEED` on `M64` only (R28, R162). -/
theorem finishDigest_eq (h : s.SameRegisters t) : s.finishDigest = t.finishDigest := by
  unfold State.finishDigest
  rw [← h.variant, ← h.v, ← h.buf, ← h.total]
  cases hvariant : s.variant with
  | m64 => rw [h.vseed hvariant]
  | m128 => rfl

theorem finish128Digest_eq (h : s.SameRegisters t) : s.finish128Digest = t.finish128Digest := by
  rw [State.finish128Digest, State.finish128Digest, h.v, h.buf, h.total]

/-- `WRITE` makes the same change to both. -/
theorem absorb_eq (h : s.SameRegisters t) (payload : List Byte) :
    ∃ l m n, absorb payload s = some { s with v := l, buf := m, total := n } ∧
      absorb payload t = some { t with v := l, buf := m, total := n } := by
  obtain ⟨l, m, n, hs⟩ := absorb_frame payload s
  refine ⟨l, m, n, hs, ?_⟩
  rw [h.eq_withSurroundings, absorb_withSurroundings, hs]
  rfl

end State.SameRegisters

section

variable {s t : State}

/-- The same response from two engines, emitted after any change that keeps variant and output. -/
theorem answerAlike_respond {s' t' : State} (r : Response) (hs : s'.output = s.output) (ht : t'.output = t.output)
    (hvariant : s'.variant = s.variant) (h : s'.SameRegisters t') :
    AnswerAlike s t (.next (s'.respond r)) (.next (t'.respond r)) :=
  ⟨_, _, r.bytes, rfl, rfl, by rw [State.respond_output, hs], by rw [State.respond_output, ht], hvariant,
    h.respond r⟩

theorem answerAlike_refuse (h : s.SameRegisters t) (status : Status) :
    AnswerAlike s t (.next (s.refuse status)) (.next (t.refuse status)) :=
  answerAlike_respond _ rfl rfl rfl h

theorem answerAlike_respondOk (h : s.SameRegisters t) (digest : List Word) :
    AnswerAlike s t (.next (s.respondOk digest)) (.next (t.respondOk digest)) :=
  answerAlike_respond _ rfl rfl rfl h

/-- `INIT` makes the registers the same whatever they were (R104, R105). -/
theorem initAccumulator_sameRegisters (seed : Word) (h : s.variant = t.variant) :
    (initAccumulator seed s).SameRegisters (initAccumulator seed t) := by
  cases ht : t.variant with
  | m64 =>
    rw [initAccumulator_of_m64 seed ht, initAccumulator_of_m64 seed (h.trans ht)]
    exact ⟨h, rfl, fun _ => rfl, rfl, rfl, rfl⟩
  | m128 =>
    have hs : s.variant = .m128 := h.trans ht
    rw [initAccumulator_of_m128 seed ht, initAccumulator_of_m128 seed hs]
    exact ⟨h, rfl, fun h64 => absurd (hs.symm.trans h64) (by decide), rfl, rfl, rfl⟩

theorem exec_init_alike (seed : Word) (h : s.variant = t.variant) :
    AnswerAlike s t (exec (.init seed) s) (exec (.init seed) t) :=
  answerAlike_respond _ (initAccumulator_output seed s) (initAccumulator_output seed t) (initAccumulator_variant seed s)
    (initAccumulator_sameRegisters seed h)

theorem execWrite_alike (payload : List Byte) (h : s.SameRegisters t) :
    AnswerAlike s t (execWrite payload s) (execWrite payload t) := by
  unfold execWrite
  rw [← h.initd, ← h.total]
  split
  · exact answerAlike_refuse h _
  split
  · exact answerAlike_refuse h _
  obtain ⟨l, m, n, hs, ht⟩ := h.absorb_eq payload
  rw [hs, ht]
  exact answerAlike_respond _ rfl rfl rfl ⟨h.variant, rfl, h.vseed, rfl, rfl, h.initd⟩

theorem execFinish_alike (h : s.SameRegisters t) : AnswerAlike s t (execFinish s) (execFinish t) := by
  unfold execFinish
  rw [← h.initd, ← h.finishDigest_eq]
  split
  · exact answerAlike_refuse h _
  · exact answerAlike_respondOk h _

theorem execFinish128_alike (h : s.SameRegisters t) : AnswerAlike s t (execFinish128 s) (execFinish128 t) := by
  unfold execFinish128
  rw [← h.variant, ← h.initd, ← h.finish128Digest_eq]
  split
  · exact answerAlike_refuse h _
  split
  · exact answerAlike_refuse h _
  · exact answerAlike_respondOk h _

/-- No command tells two states with the same registers apart. -/
theorem exec_alike (i : Instr) (h : s.SameRegisters t) : AnswerAlike s t (exec i s) (exec i t) := by
  cases i with
  | init seed => exact exec_init_alike seed h.variant
  | write payload => exact execWrite_alike payload h
  | finish => exact execFinish_alike h
  | finish128 => exact execFinish128_alike h
  | new => exact exec_init_alike 0 h.variant

/-- A run is alike when its first command is and the rest is alike from any two states with the same registers. -/
theorem runCommands_cons_alike {i : Instr} {is : List Instr} (hfirst : AnswerAlike s t (exec i s) (exec i t))
    (hrest : ∀ {s' t' : State}, s'.SameRegisters t' → AnswerAlike s' t' (runCommands is s') (runCommands is t')) :
    AnswerAlike s t (runCommands (i :: is) s) (runCommands (i :: is) t) := by
  obtain ⟨s₁, t₁, first, hs, ht, hsout, htout, hvar, hsame⟩ := hfirst
  obtain ⟨s₂, t₂, rest, hs', ht', hsout', htout', hvar', hsame'⟩ := hrest hsame
  refine ⟨s₂, t₂, first ++ rest, ?_, ?_, ?_, ?_, hvar'.trans hvar, hsame'⟩
  · rw [runCommands, hs, ← hs']
  · rw [runCommands, ht, ← ht']
  · rw [hsout', hsout, List.append_assoc]
  · rw [htout', htout, List.append_assoc]

end

/-- No list of commands tells two states with the same registers apart. -/
theorem runCommands_alike (is : List Instr) {s t : State} (h : s.SameRegisters t) :
    AnswerAlike s t (runCommands is s) (runCommands is t) := by
  induction is generalizing s t with
  | nil => exact ⟨s, t, [], rfl, rfl, (List.append_nil _).symm, (List.append_nil _).symm, rfl, h⟩
  | cons i is ih => exact runCommands_cons_alike (exec_alike i h) ih

/-- Settles O7: `INIT` makes the registers the same from any two states of one variant, and no later command tells the
two apart. -/
theorem initForgetsTheOldAccumulator : Obligations.InitForgetsTheOldAccumulator := by
  intro seed later s t hvariant
  obtain ⟨s', t', responses, hs, ht, hsout, htout, hkeep, hsame⟩ :=
    runCommands_cons_alike (exec_init_alike seed hvariant) (runCommands_alike later)
  exact ⟨s', t', responses, hs, ht, hsout, htout, hsame.v, hsame.buf, hsame.total, hsame.initd,
    fun h64 => hsame.vseed (hkeep.trans h64)⟩

end Sys2Proof.Machine
end

section
/-! PROOFS. `WRITE` (42_write.md R110 to R120): which of its three answers it gives, what it adds to `TOTAL`, the empty
payload, and the block mix written out. -/

namespace Sys2Proof.Machine

/-! ### The three answers of `WRITE` -/

theorem lengthOverflows_iff (total : Word) (n : Nat) :
    lengthOverflows total n = true ↔ 2 ^ 64 - 1 < total.toNat + n :=
  decide_eq_true_iff

/-- Before `INIT`, whatever the payload (R191, R194). -/
theorem exec_write_of_not_initd (payload : List Byte) {s : State} (h : s.initd = false) :
    exec (.write payload) s = .next (s.refuse .notInitialised) :=
  if_pos h

/-- Past the bound of `TOTAL` (R117). -/
theorem exec_write_of_overflow {payload : List Byte} {s : State} (hinit : s.initd = true)
    (h : 2 ^ 64 - 1 < s.total.toNat + payload.length) :
    exec (.write payload) s = .next (s.refuse .lengthOverflow) := by
  have hinit' : ¬ s.initd = false := by simp [hinit]
  exact (if_neg hinit').trans (if_pos ((lengthOverflows_iff _ _).2 h))

/-- Within the bound: what R111 leaves, and the response `OK`. -/
theorem exec_write_of_absorb {payload : List Byte} {s t : State} (hinit : s.initd = true)
    (hrange : s.total.toNat + payload.length ≤ 2 ^ 64 - 1) (h : absorb payload s = some t) :
    exec (.write payload) s = .next (t.respondOk []) := by
  have hinit' : ¬ s.initd = false := by simp [hinit]
  have hover : ¬ lengthOverflows s.total payload.length = true :=
    fun hover => absurd ((lengthOverflows_iff _ _).1 hover) (Nat.not_lt.2 hrange)
  show execWrite payload s = _
  rw [execWrite, if_neg hinit', if_neg hover, h]

/-! ### What `WRITE` adds to `TOTAL` -/

/-- Steps 3 and 4 of R111 count the bytes behind the cursor, on any buffer. -/
theorem absorbAligned_total {payload : List Byte} {p : Nat} {s t : State} (h : absorbAligned payload p s = some t) :
    t.total = s.total + BitVec.ofNat 64 (payload.length - p) := by
  simp only [absorbAligned] at h
  split at h
  · split at h
    · cases h
    · cases h
      rfl
  · cases h
    rfl

/-- R111 counts every byte of the payload once, whether it goes to the buffered block or behind it, on any buffer. -/
theorem absorb_total {payload : List Byte} {s t : State} (h : absorb payload s = some t) :
    t.total = s.total + BitVec.ofNat 64 payload.length := by
  by_cases h0 : s.fill = 0
  · rw [absorb_of_aligned h0] at h
    exact absorbAligned_total h
  by_cases hs : s.fill + payload.length < 32
  · rw [absorb_of_short h0 hs] at h
    cases h
    rfl
  · have hs : 32 ≤ s.fill + payload.length := Nat.not_lt.1 hs
    have hlt := fill_lt s
    have hsplit : 32 - s.fill + (payload.length - (32 - s.fill)) = payload.length := by omega
    rw [absorb_of_full h0 hs] at h
    rw [absorbAligned_total h, State.withLanes_total, State.addTotal_total, State.withBuf_total, BitVec.add_assoc,
      ← BitVec.ofNat_add, hsplit]

/-- Settles O9: past the bound by the refusal; within it R111 answers on every buffer and counts the payload, and the
addition does not wrap. -/
theorem totalNeverWraps : Obligations.TotalNeverWraps := by
  intro payload s hinit
  refine ⟨fun hover => exec_write_of_overflow hinit hover, fun hrange => ?_⟩
  obtain ⟨l, m, n, habsorb⟩ := absorb_frame payload s
  refine ⟨_, exec_write_of_absorb hinit hrange habsorb, ?_⟩
  rw [State.respondOk_total, absorb_total habsorb]
  exact addTotal_toNat hrange

/-! ### The empty payload -/

theorem addTotal_zero (s : State) : s.addTotal 0 = s := by
  simp only [State.addTotal, BitVec.add_zero]

/-- R111 on the empty payload: no block to mix and no byte to copy or count, at any fill (R115). -/
theorem absorb_nil (s : State) : absorb [] s = some s := by
  by_cases h0 : s.fill = 0
  · rw [absorb_of_aligned h0]
    exact congrArg some (addTotal_zero s)
  · rw [absorb_of_short (payload := []) h0 (fill_lt s)]
    exact congrArg some (addTotal_zero s)

/-- Settles O11: the empty payload is always within the bound of `TOTAL`, and R111 leaves the state as it is. -/
theorem emptyWriteChangesNothing : Obligations.EmptyWriteChangesNothing := fun s =>
  ⟨fun hinit => exec_write_of_absorb hinit (Nat.le_pred_of_lt s.total.isLt) (absorb_nil s),
    fun hinit => exec_write_of_not_initd [] hinit⟩

/-! ### The block mix -/

/-- The four updates of `MixBlock` in terms of the lanes before it: lanes 0 and 1 take in the old lanes 2 and 3, lanes 2
and 3 the new lanes 0 and 1 (R112). -/
theorem mixBlock_eq (k : Constants) (a b c d x0 x1 x2 x3 : Word) :
    mixBlock k ⟨a, b, c, d⟩ x0 x1 x2 x3 =
      ⟨rotr (a + x0 * k.k0) 29 + c,
        rotr (b + x1 * k.k1) 29 + d,
        rotr (c + x2 * k.k2) 29 + (rotr (a + x0 * k.k0) 29 + c),
        rotr (d + x3 * k.k3) 29 + (rotr (b + x1 * k.k1) 29 + d)⟩ := rfl

/-- Settles O17: the lanes by `mixBlock_eq`; the words are those of the reads at offsets 0, 8, 16 and 24, and the
constants those of the table, by definition. -/
theorem mixBlockFeedsForwardInOrder : Obligations.MixBlockFeedsForwardInOrder :=
  ⟨mixBlock_eq, fun _ _ _ _ _ => ⟨rfl, rfl⟩, rfl, rfl⟩

end Sys2Proof.Machine
end

section
/-! PROOFS. `FINISH` on `M64` (43_finish64.md R130 to R140): the formula of each finalisation step, and the response and
frame of the command. -/

namespace Sys2Proof.Machine

/-! ### The finalisation steps, written out in the lanes before them -/

/-- The cross mix of R131 and R151 for any constants: the new lanes 2 and 3, each taken into the ones after it, and lanes
0 and 1 from their old values and both new ones. -/
theorem bulkMix_eq (k : Constants) (amount : Nat) (a b c d : Word) :
    bulkMix k amount ⟨a, b, c, d⟩ =
      let c' := c ^^^ (rotr ((a + d) * k.k0 + b) amount * k.k1)
      let d' := d ^^^ (rotr ((b + c') * k.k1 + a) amount * k.k0)
      ⟨a ^^^ (rotr ((a + c') * k.k0 + d') amount * k.k1),
        b ^^^ (rotr ((b + d') * k.k1 + c') amount * k.k0), c', d'⟩ := rfl

/-- R134: `w[1]` and `w[2]` start from the same `w[0]`, so neither depends on the old lanes 1 and 2. -/
theorem tail16_64_eq (m : Memory) (p : Nat) (a b c d : Word) :
    tail16_64 m { w := ⟨a, b, c, d⟩, ptr := p } =
      let k := constants .m64
      let b1 := rotr (a + memRead m p 8 * k.k2) 29 * k.k3
      let c1 := rotr (a + memRead m (p + 8) 8 * k.k2) 29 * k.k3
      let b2 := b1 ^^^ (rotr (b1 * k.k0) 21 + c1)
      let c2 := c1 ^^^ (rotr (c1 * k.k3) 21 + b2)
      { w := ⟨a + c2, b2, c2, d⟩, ptr := p + 16 } := rfl

/-- The absorb step shared by R135 to R138: it changes `w[0]` and the cursor only. -/
theorem absorb64_eq (width amount : Nat) (m : Memory) (p : Nat) (a b c d : Word) :
    absorb64 width amount m { w := ⟨a, b, c, d⟩, ptr := p } =
      let k := constants .m64
      let a1 := a + memRead m p width * k.k3
      { w := ⟨a1 ^^^ (rotr a1 amount * k.k1), b, c, d⟩, ptr := p + width } := rfl

/-- R139: the three operations of the avalanche, on `w[0]` alone. -/
theorem aval64_eq (a b c d : Word) :
    aval64 ⟨a, b, c, d⟩ =
      let a1 := (a ^^^ rotr a 28) * (constants .m64).k0
      ⟨a1 ^^^ rotr a1 29, b, c, d⟩ := rfl

/-- Settles O24: each step by its formula over the constants of `M64`, whose values are those of R88; the fold and the
four absorb amounts are definitions. -/
theorem finalisationStepsOfM64 : Obligations.FinalisationStepsOfM64 := fun a b c d _ m p width amount =>
  ⟨bulkMix_eq (constants .m64) 37 a b c d, rfl, tail16_64_eq m p a b c d, absorb64_eq width amount m p a b c d,
    ⟨rfl, rfl, rfl, rfl⟩, aval64_eq a b c d⟩

/-! ### The digest of `FINISH` on `M64` -/

theorem bulkRuns_iff (total : Word) : bulkRuns total = true ↔ 32 ≤ total.toNat := decide_eq_true_iff

/-- The bulk part and the fold run together, or neither does (R130). -/
theorem bulk64_eq (vseed total : Word) (w : Lanes) :
    bulk64 vseed total w = if 32 ≤ total.toNat then fold64 vseed (bulkFin64 w) else w := by
  simp only [bulk64, bulkRuns_iff]

theorem State.finishDigest_of_m64 {s : State} (h : s.variant = .m64) :
    s.finishDigest = [(final64 s.v s.vseed s.buf s.total).v0] := by
  simp only [State.finishDigest, h]

/-! ### The response and frame of `FINISH` -/

/-- An accepted response with one digest word writes the output stream only: `00` and the word's 8 bytes (R70). -/
theorem State.respondOk_singleton (s : State) (d : Word) :
    s.respondOk [d] = { s with output := s.output ++ 0x00 :: wordBytes d } := rfl

/-- Before `INIT`, on either variant (R191). -/
theorem exec_finish_of_not_initd {s : State} (h : s.initd = false) :
    exec .finish s = .next (s.refuse .notInitialised) := if_pos h

/-- After `INIT`, on either variant (R130, R160). -/
theorem exec_finish_of_initd {s : State} (h : s.initd = true) :
    exec .finish s = .next (s.respondOk s.finishDigest) := by
  have h' : ¬ s.initd = false := by simp [h]
  exact if_neg h'

/-- Settles O22: accepted, by the digest of `M64` with its bulk test read as `TOTAL >= 32`; refused, by the one status
byte. -/
theorem finishOnM64 : Obligations.FinishOnM64 := by
  refine fun s hvariant => ⟨fun hinit => ?_, fun hinit => exec_finish_of_not_initd hinit⟩
  rw [exec_finish_of_initd hinit, State.finishDigest_of_m64 hvariant, State.respondOk_singleton, final64, bulk64_eq,
    fillOf]

end Sys2Proof.Machine
end

section
/-! PROOFS. `FINISH128`, and `FINISH` on `M128` (44_finish128.md R150 to R162): the formula of each finalisation step, the
refusals with their priority, and the response and frame of both commands. -/

namespace Sys2Proof.Machine

/-! ### The finalisation steps, written out in the lanes before them -/

/-- R153: each lane takes in one word, then lane 0 is mixed with the new lane 1, and lane 1 with the mixed lane 0. -/
theorem tail16_128_eq (m : Memory) (p : Nat) (a b c d : Word) :
    tail16_128 m { w := ⟨a, b, c, d⟩, ptr := p } =
      let k := constants .m128
      let a1 := rotr (a + memRead m p 8 * k.k2) 33 * k.k3
      let b1 := rotr (b + memRead m (p + 8) 8 * k.k2) 33 * k.k3
      let a2 := a1 ^^^ (rotr (a1 * k.k2 + b1) 45 * k.k1)
      { w := ⟨a2, b1 ^^^ (rotr (b1 * k.k3 + a2) 45 * k.k0), c, d⟩, ptr := p + 16 } := rfl

/-- The absorb step shared by R154 and R156: it reads lane 1 and changes lane 0 and the cursor only. -/
theorem absorb128Lane0_eq (width amount : Nat) (m : Memory) (p : Nat) (a b c d : Word) :
    absorb128Lane0 width amount m { w := ⟨a, b, c, d⟩, ptr := p } =
      let k := constants .m128
      let a1 := rotr (a + memRead m p width * k.k2) 33 * k.k3
      { w := ⟨a1 ^^^ (rotr (a1 * k.k2 + b) amount * k.k1), b, c, d⟩, ptr := p + width } := rfl

/-- The absorb step shared by R155 and R157: it reads lane 0 and changes lane 1 and the cursor only. -/
theorem absorb128Lane1_eq (width amount : Nat) (m : Memory) (p : Nat) (a b c d : Word) :
    absorb128Lane1 width amount m { w := ⟨a, b, c, d⟩, ptr := p } =
      let k := constants .m128
      let b1 := rotr (b + memRead m p width * k.k2) 33 * k.k3
      { w := ⟨a, b1 ^^^ (rotr (b1 * k.k3 + a) amount * k.k0), c, d⟩, ptr := p + width } := rfl

/-- R158: lanes 0 and 1 in turn, twice, each from the other's newest value. -/
theorem aval128_eq (a b c d : Word) :
    aval128 ⟨a, b, c, d⟩ =
      let k := constants .m128
      let a1 := a + rotr (a * k.k0 + b) 13
      let b1 := b + rotr (b * k.k1 + a1) 37
      let a2 := a1 + rotr (a1 * k.k2 + b1) 13
      ⟨a2, b1 + rotr (b1 * k.k3 + a2) 37, c, d⟩ := rfl

/-- Settles O25: each step by its formula over the constants of `M128`, whose values are those of R88; the four short
tail steps are two absorbs into lane 0 and two into lane 1. -/
theorem finalisationStepsOfM128 : Obligations.FinalisationStepsOfM128 := fun a b c d m p =>
  ⟨bulkMix_eq (constants .m128) 21 a b c d, tail16_128_eq m p a b c d, absorb128Lane0_eq 8 27 m p a b c d,
    absorb128Lane1_eq 4 46 m p a b c d, absorb128Lane0_eq 2 22 m p a b c d, absorb128Lane1_eq 1 58 m p a b c d,
    aval128_eq a b c d⟩

/-! ### The digest of `M128` -/

/-- R150 with its bulk test read as `TOTAL >= 32`: the avalanche runs whatever `TOTAL` is. -/
theorem final128_eq (v : Lanes) (m : Memory) (total : Word) :
    final128 v m total =
      aval128 (tails128 m (total.toNat % 32)
        { w := if 32 ≤ total.toNat then bulkFin128 v else v, ptr := 0 }).w := by
  simp only [final128, bulk128, bulkRuns_iff, fillOf]

theorem State.finishDigest_of_m128 {s : State} (h : s.variant = .m128) :
    s.finishDigest = [(final128 s.v s.buf s.total).v0] := by
  simp only [State.finishDigest, h]

/-- An accepted response with two digest words writes the output stream only: `00`, then the words' bytes, the first
word first (R70, R159). -/
theorem State.respondOk_pair (s : State) (d0 d1 : Word) :
    s.respondOk [d0, d1] = { s with output := s.output ++ 0x00 :: (wordBytes d0 ++ wordBytes d1) } := rfl

/-! ### The three answers of `FINISH128` -/

/-- On `M64`, whether or not `INIT` has run (R161, R194). -/
theorem exec_finish128_of_m64 {s : State} (h : s.variant = .m64) :
    exec .finish128 s = .next (s.refuse .wrongVariant) := if_pos h

/-- On `M128` before `INIT` (R191). -/
theorem exec_finish128_of_not_initd {s : State} (hvariant : s.variant = .m128) (hinit : s.initd = false) :
    exec .finish128 s = .next (s.refuse .notInitialised) := by
  have hvariant' : ¬ s.variant = .m64 := by simp [hvariant]
  exact (if_neg hvariant').trans (if_pos hinit)

/-- On `M128` after `INIT` (R150). -/
theorem exec_finish128_of_initd {s : State} (hvariant : s.variant = .m128) (hinit : s.initd = true) :
    exec .finish128 s = .next (s.respondOk s.finish128Digest) := by
  have hvariant' : ¬ s.variant = .m64 := by simp [hvariant]
  have hinit' : ¬ s.initd = false := by simp [hinit]
  exact (if_neg hvariant').trans (if_neg hinit')

/-- Settles O21: each refusal emits its one status byte, `02` or `03`, and writes nothing else. -/
theorem finishRefusals : Obligations.FinishRefusals := fun _ =>
  ⟨exec_finish_of_not_initd, exec_finish128_of_not_initd, exec_finish128_of_m64⟩

/-- Settles O23: accepted, both commands answer from the lanes of `Final128`, `FINISH` with the first word only; the
refusals are those of O21. -/
theorem finishOnM128 : Obligations.FinishOnM128 := by
  refine fun s => ⟨fun hvariant hinit => ⟨final128 s.v s.buf s.total, final128_eq _ _ _, ?_, ?_⟩,
    fun hvariant hinit => ⟨exec_finish128_of_not_initd hvariant hinit, exec_finish_of_not_initd hinit⟩,
    exec_finish128_of_m64⟩
  · rw [exec_finish128_of_initd hvariant hinit, State.finish128Digest, State.respondOk_pair]
  · rw [exec_finish_of_initd hinit, State.finishDigest_of_m128 hvariant, State.respondOk_singleton]

end Sys2Proof.Machine
end

section
/-! PROOFS. Byte order (20_memory.md R41, R42; 40_primitives.md R85): a little-endian word peeled byte by byte, the word
and its 8 bytes, and narrow reads inside wide ones. -/

namespace Sys2Proof

/-! ### A little-endian word, byte by byte -/

/-- Whatever the length, `n` bytes assemble to less than `256 ^ n`: the words of longer lists wrap below it. -/
theorem leWord_toNat_lt (bs : List Byte) : (leWord bs).toNat < 256 ^ bs.length := by
  induction bs with
  | nil => decide
  | cons b bs ih =>
    have hb := b.isLt
    have hmod : (b.toNat + 256 * (leWord bs).toNat) % 2 ^ 64 ≤ b.toNat + 256 * (leWord bs).toNat := Nat.mod_le _ _
    simp only [leWord, zext64, BitVec.toNat_add, BitVec.toNat_mul, BitVec.toNat_setWidth, BitVec.reduceToNat,
      List.length_cons, Nat.pow_succ]
    omega

/-- Up to 8 bytes nothing wraps (R10). -/
theorem leWord_cons_toNat (b : Byte) {bs : List Byte} (h : bs.length < 8) :
    (leWord (b :: bs)).toNat = b.toNat + 256 * (leWord bs).toNat := by
  have hb := b.isLt
  have hlt := leWord_toNat_lt bs
  have hpow : 256 ^ bs.length ≤ 256 ^ 7 := Nat.pow_le_pow_right (by decide) (by omega)
  simp only [leWord, zext64, BitVec.toNat_add, BitVec.toNat_mul, BitVec.toNat_setWidth, BitVec.reduceToNat]
  omega

theorem wordByte_toNat (w : Word) (i : Nat) : (wordByte w i).toNat = w.toNat / 2 ^ (8 * i) % 2 ^ 8 := by
  rw [wordByte, BitVec.extractLsb'_toNat, Nat.shiftRight_eq_div_pow]

theorem wordByte_leWord_zero (b : Byte) {bs : List Byte} (h : bs.length < 8) : wordByte (leWord (b :: bs)) 0 = b := by
  have hb := b.isLt
  apply BitVec.eq_of_toNat_eq
  rw [wordByte_toNat, leWord_cons_toNat b h]
  omega

theorem wordByte_leWord_succ (b : Byte) {bs : List Byte} (h : bs.length < 8) (i : Nat) :
    wordByte (leWord (b :: bs)) (i + 1) = wordByte (leWord bs) i := by
  have hb := b.isLt
  have hdiv : (b.toNat + 256 * (leWord bs).toNat) / 2 ^ 8 = (leWord bs).toNat := by omega
  apply BitVec.eq_of_toNat_eq
  rw [wordByte_toNat, wordByte_toNat, leWord_cons_toNat b h, Nat.mul_succ, Nat.add_comm (8 * i), Nat.pow_add,
    ← Nat.div_div_eq_div_mul, hdiv]

/-! ### A word and its 8 bytes -/

theorem wordBytes_leWord : ∀ {bs : List Byte}, bs.length = 8 → wordBytes (leWord bs) = bs
  | [b0, b1, b2, b3, b4, b5, b6, b7], _ => by simp [wordBytes, wordByte_leWord_zero, wordByte_leWord_succ]

theorem leWord_wordBytes (w : Word) : leWord (wordBytes w) = w := by
  have hw := w.isLt
  apply BitVec.eq_of_toNat_eq
  simp only [wordBytes, leWord_cons_toNat, List.length_cons, List.length_nil, Nat.reduceAdd, Nat.reduceLT, wordByte_toNat]
  simp only [leWord, BitVec.reduceToNat]
  omega

/-- Settles O49: from the word by the digits of its value in base 256, from the bytes by peeling them off in order. -/
theorem wordAndBytesAgree : Obligations.WordAndBytesAgree := ⟨leWord_wordBytes, fun _ => wordBytes_leWord⟩

/-! ### Narrow reads -/

/-- The first `n` of at most 8 bytes assemble to the low `8 * n` bits (R85). -/
theorem leWord_take_toNat {bs : List Byte} (h : bs.length ≤ 8) (n : Nat) :
    (leWord (bs.take n)).toNat = (leWord bs).toNat % 2 ^ (8 * n) := by
  induction bs generalizing n with
  | nil => simp [leWord]
  | cons b bs ih =>
    rw [List.length_cons] at h
    cases n with
    | zero => simp [leWord, Nat.mod_one]
    | succ n =>
      have hb := b.isLt
      have hlen : (bs.take n).length < 8 := by rw [List.length_take]; omega
      have hlow : (b.toNat + 256 * (leWord bs).toNat) % 2 ^ 8 = b.toNat := by omega
      have hhigh : (b.toNat + 256 * (leWord bs).toNat) / 2 ^ 8 = (leWord bs).toNat := by omega
      rw [List.take_succ_cons, leWord_cons_toNat b hlen, leWord_cons_toNat b h, ih (by omega), Nat.mul_succ,
        Nat.add_comm (8 * n), Nat.pow_add, Nat.mod_mul, hlow, hhigh]

end Sys2Proof

namespace Sys2Proof.Machine

theorem memBytes_take {n k : Nat} (m : Memory) (a : Nat) (h : n ≤ k) : (memBytes m a k).take n = memBytes m a n := by
  rw [memBytes, ← List.map_take, List.take_range, Nat.min_eq_left h, memBytes]

/-- Settles O50: the narrow read takes the first bytes of the wide one. -/
theorem narrowReadsAreLowBits : Obligations.NarrowReadsAreLowBits := by
  intro m a n k hnk hk
  rw [memRead, memRead, ← memBytes_take m a hnk, leWord_take_toNat (by rwa [memBytes_length])]

end Sys2Proof.Machine
end

section
/-! PROOFS. The pending buffer's memory (10_state.md R24, 40_primitives.md R87): canonical memories are told apart by
their contents, and `bounded_copy` moves exactly its bytes. -/

namespace Sys2Proof.Machine

/-- Canonical memories that read alike are equal: the first entries of both are the first cell that is not 0. -/
theorem Memory.eq_of_read_eq {lo : Nat} {m m' : Memory} (h : Memory.wfFrom lo m = true)
    (h' : Memory.wfFrom lo m' = true) (hread : ∀ a, m.read a = m'.read a) : m = m' := by
  induction m generalizing lo m' with
  | nil =>
    cases m' with
    | nil => rfl
    | cons c' m' =>
      obtain ⟨a', b'⟩ := c'
      obtain ⟨-, -, hb', -⟩ := (Memory.wfFrom_cons lo a' b' m').1 h'
      have := hread a'
      rw [Memory.read_nil, Memory.read_cons, if_pos rfl] at this
      exact absurd this.symm hb'
  | cons c m ih =>
    obtain ⟨a, b⟩ := c
    obtain ⟨hlo, ha, hb, hm⟩ := (Memory.wfFrom_cons lo a b m).1 h
    have hfirst := hread a
    rw [Memory.read_cons, if_pos rfl] at hfirst
    cases m' with
    | nil => exact absurd hfirst hb
    | cons c' m' =>
      obtain ⟨a', b'⟩ := c'
      obtain ⟨hlo', ha', hb', hm'⟩ := (Memory.wfFrom_cons lo a' b' m').1 h'
      have hfirst' := hread a'
      rw [Memory.read_cons a', if_pos rfl] at hfirst'
      have hle : ¬ a < a' := fun hlt => hb (hfirst.trans (Memory.read_below (lo := a') hlt
        ((Memory.wfFrom_cons a' a' b' m').2 ⟨le_refl _, ha', hb', hm'⟩)))
      have hge : ¬ a' < a := fun hlt => hb' (hfirst'.symm.trans (Memory.read_below (lo := a) hlt
        ((Memory.wfFrom_cons a a b m).2 ⟨le_refl _, ha, hb, hm⟩)))
      obtain rfl : a = a' := by omega
      rw [Memory.read_cons, if_pos rfl] at hfirst
      rw [hfirst, ih hm hm']
      intro x
      by_cases hx : x = a
      · rw [hx, Memory.read_below (Nat.lt_succ_self a) hm, Memory.read_below (Nat.lt_succ_self a) hm']
      · simpa only [Memory.read_cons, if_neg hx] using hread x

/-- Settles O51: by the first entries, then the rest. -/
theorem equalContentsAreEqualMemory : Obligations.EqualContentsAreEqualMemory :=
  fun _ _ h h' hread => Memory.eq_of_read_eq h h' hread

/-- Settles O16: inside the contract by what a copy does, outside it because `bounded_copy` answers inside it only. -/
theorem boundedCopyMovesExactlyItsBytes : Obligations.BoundedCopyMovesExactlyItsBytes := by
  intro payload src dst n m hm
  refine ⟨fun hn hsrc hdst => ?_, fun hout => ?_⟩
  · have hcopy := boundedCopy_eq m hn hsrc hdst
    obtain ⟨-, hmoved, hframe⟩ := boundedCopy_spec hm hcopy
    exact ⟨_, hcopy, hmoved, hframe⟩
  · rw [← Option.not_isSome_iff_eq_none, boundedCopy_isSome]
    omega

end Sys2Proof.Machine
end

section
/-! PROOFS. Every command in every state (60_exceptions.md, 10_state.md R25, R32): the inversion of `exec`, and what it
says of responses, of `INITD`, of the fields a command writes and of the field `vseed` on `M128`. -/

namespace Sys2Proof.Machine

theorem variant_cases (variant : Variant) : variant = .m64 ∨ variant = .m128 := by
  cases variant with
  | m64 => exact .inl rfl
  | m128 => exact .inr rfl

/-! ### Everything a command can do -/

/-- Everything a command can do from `s`: `INIT` and `NEW` start a fresh accumulator; an accepted `WRITE` writes lanes,
`BUF` and `TOTAL`; an accepted finalisation answers its digest; a refused command answers its status and nothing else. -/
inductive CommandEffect (s : State) : Instr → State → Prop where
  | init (seed : Word) : CommandEffect s (.init seed) ((initAccumulator seed s).respondOk [])
  | new : CommandEffect s .new ((initAccumulator 0 s).respondOk [])
  | write {payload : List Byte} {l : Lanes} {m : Memory} (hinit : s.initd = true)
      (hrange : s.total.toNat + payload.length ≤ 2 ^ 64 - 1)
      (habsorb : absorb payload s =
        some { s with v := l, buf := m, total := s.total + BitVec.ofNat 64 payload.length }) :
      CommandEffect s (.write payload)
        (State.respondOk { s with v := l, buf := m, total := s.total + BitVec.ofNat 64 payload.length } [])
  | finish (hinit : s.initd = true) : CommandEffect s .finish (s.respondOk s.finishDigest)
  | finish128 (hvariant : s.variant = .m128) (hinit : s.initd = true) :
      CommandEffect s .finish128 (s.respondOk s.finish128Digest)
  | refused {i : Instr} {status : Status} (hcore : ∀ seed, i.core ≠ .init seed) (hstatus : status ≠ .ok) :
      CommandEffect s i (s.refuse status)

/-- R111 on any buffer, canonical or not, with what it adds to `TOTAL`. -/
theorem absorb_frame_total (payload : List Byte) (s : State) :
    ∃ l m, absorb payload s = some { s with v := l, buf := m, total := s.total + BitVec.ofNat 64 payload.length } := by
  obtain ⟨l, m, n, habsorb⟩ := absorb_frame payload s
  obtain rfl : n = _ := absorb_total habsorb
  exact ⟨l, m, habsorb⟩

theorem exec_write_effect (payload : List Byte) (s : State) :
    ∃ t, exec (.write payload) s = .next t ∧ CommandEffect s (.write payload) t := by
  have hcore : ∀ seed, (Instr.write payload).core ≠ .init seed := fun _ => Instr.noConfusion
  cases hinit : s.initd with
  | false => exact ⟨_, exec_write_of_not_initd payload hinit, .refused hcore (by decide)⟩
  | true =>
    by_cases hrange : s.total.toNat + payload.length ≤ 2 ^ 64 - 1
    · obtain ⟨l, m, habsorb⟩ := absorb_frame_total payload s
      exact ⟨_, exec_write_of_absorb hinit hrange habsorb, .write hinit hrange habsorb⟩
    · exact ⟨_, exec_write_of_overflow hinit (Nat.not_le.1 hrange), .refused hcore (by decide)⟩

theorem exec_finish_effect (s : State) : ∃ t, exec .finish s = .next t ∧ CommandEffect s .finish t := by
  cases hinit : s.initd with
  | false => exact ⟨_, exec_finish_of_not_initd hinit, .refused (fun _ => Instr.noConfusion) (by decide)⟩
  | true => exact ⟨_, exec_finish_of_initd hinit, .finish hinit⟩

theorem exec_finish128_effect (s : State) : ∃ t, exec .finish128 s = .next t ∧ CommandEffect s .finish128 t := by
  have hcore : ∀ seed, Instr.finish128.core ≠ .init seed := fun _ => Instr.noConfusion
  cases hvariant : s.variant with
  | m64 => exact ⟨_, exec_finish128_of_m64 hvariant, .refused hcore (by decide)⟩
  | m128 =>
    cases hinit : s.initd with
    | false => exact ⟨_, exec_finish128_of_not_initd hvariant hinit, .refused hcore (by decide)⟩
    | true => exact ⟨_, exec_finish128_of_initd hvariant hinit, .finish128 hvariant hinit⟩

/-- Every command ends in a next state, by one of the effects. -/
theorem exec_effect (i : Instr) (s : State) : ∃ t, exec i s = .next t ∧ CommandEffect s i t := by
  cases i with
  | init seed => exact ⟨_, rfl, .init seed⟩
  | write payload => exact exec_write_effect payload s
  | finish => exact exec_finish_effect s
  | finish128 => exact exec_finish128_effect s
  | new => exact ⟨_, rfl, .new⟩

theorem CommandEffect.of_exec {i : Instr} {s t : State} (h : exec i s = .next t) : CommandEffect s i t := by
  obtain ⟨t', h', heffect⟩ := exec_effect i s
  cases h'.symm.trans h
  exact heffect

/-- Settles O33: each command has one of the effects, none of which is a fault or a refusal of the model. -/
theorem everyCommandEndsInANextState : Obligations.EveryCommandEndsInANextState := fun i s =>
  let ⟨t, h, _⟩ := exec_effect i s
  ⟨t, h⟩

/-! ### Responses -/

theorem Status.code_ne_zero {status : Status} (h : status ≠ .ok) : status.code ≠ 0 := by
  cases status with
  | ok => exact absurd rfl h
  | illegalCommand => decide
  | notInitialised => decide
  | wrongVariant => decide
  | lengthOverflow => decide

theorem Status.code_le (status : Status) : status.code.toNat ≤ 4 := by
  cases status <;> decide

theorem flatMap_wordBytes_length (digest : List Word) : (digest.flatMap wordBytes).length = 8 * digest.length := by
  simp [List.length_flatMap, Nat.mul_comm]

theorem finishDigest_length (s : State) : s.finishDigest.length = 1 := by
  unfold State.finishDigest
  split <;> rfl

/-- No command touches the variant, the stream presented or the reset count; on `M128` none writes `vseed` (R22). -/
theorem CommandEffect.frame {i : Instr} {s t : State} (h : CommandEffect s i t) :
    t.variant = s.variant ∧ t.input = s.input ∧ t.resets = s.resets ∧ (s.variant = .m128 → t.vseed = s.vseed) := by
  have hinit (seed : Word) (h128 : s.variant = .m128) : (initAccumulator seed s).vseed = s.vseed := by
    rw [initAccumulator_of_m128 seed h128]
  cases h with
  | init seed => simpa using hinit seed
  | new => simpa using hinit 0
  | write | finish | finish128 | refused => exact ⟨rfl, rfl, rfl, fun _ => rfl⟩

/-- The one response of a command: `00` and its digest bytes, or a refusal with no other change. -/
theorem CommandEffect.response {i : Instr} {s t : State} (h : CommandEffect s i t) :
    (∃ digest : List Word, t.output = s.output ++ 0x00 :: digest.flatMap wordBytes ∧
      digest.length = if i = .finish then 1 else if i = .finish128 then 2 else 0) ∨
    (∃ status, status ≠ Status.ok ∧ t = s.refuse status) := by
  cases h with
  | init seed => exact .inl ⟨[], by simp, rfl⟩
  | new => exact .inl ⟨[], by simp, rfl⟩
  | write => exact .inl ⟨[], rfl, rfl⟩
  | finish => exact .inl ⟨_, rfl, finishDigest_length s⟩
  | finish128 => exact .inl ⟨_, rfl, rfl⟩
  | refused _ hstatus => exact .inr ⟨_, hstatus, rfl⟩

/-- Settles O34: by the frame and the response of the command's effect. -/
theorem oneResponsePerCommand : Obligations.OneResponsePerCommand := by
  intro i s t h
  have heffect := CommandEffect.of_exec h
  obtain ⟨hvariant, hinput, hresets, -⟩ := heffect.frame
  refine ⟨hvariant, hinput, hresets, ?_⟩
  obtain ⟨digest, hout, hlen⟩ | ⟨status, hstatus, rfl⟩ := heffect.response
  · refine ⟨0x00, _, hout, by decide, fun hne => absurd rfl hne, fun _ => ?_⟩
    rw [flatMap_wordBytes_length, hlen]
    split
    · rfl
    split <;> rfl
  · exact ⟨status.code, [], rfl, status.code_le, fun _ => ⟨rfl, rfl⟩,
      fun hzero => absurd hzero (Status.code_ne_zero hstatus)⟩

/-! ### What each command writes -/

/-- Settles O35: only the fresh accumulator of `INIT` and `NEW` writes the flag. -/
theorem onlyInitSetsInitd : Obligations.OnlyInitSetsInitd := by
  intro i s t h
  cases CommandEffect.of_exec h with
  | init seed => simp [Instr.core]
  | new => simp [Instr.core]
  | write hinit => simp [hinit]
  | finish hinit => simp [hinit]
  | finish128 _ hinit => simp [hinit]
  | refused hcore => simp [hcore]

/-- Settles O36: finalisations and refusals change the output only, and an accepted `WRITE` does not wrap `TOTAL`. -/
theorem accessByCommand : Obligations.AccessByCommand := by
  intro i s t h
  cases CommandEffect.of_exec h with
  | init seed => simp [Instr.core]
  | new => simp [Instr.core]
  | write _ hrange =>
    refine ⟨by simp, fun _ => rfl, fun _ => ?_⟩
    have htotal := addTotal_toNat hrange
    rw [State.addTotal_total] at htotal
    rw [State.respondOk_total, htotal]
    exact Nat.le_add_right _ _
  | finish | finish128 | refused => exact ⟨fun _ => rfl, fun _ => rfl, fun _ => le_refl _⟩

/-! ### What no command reads -/

/-- From a state with the same registers a command does the same, whatever `vseed` on `M128` and whatever the model's own
fields hold: those are carried along. -/
theorem exec_of_sameRegisters {i : Instr} {s t u : State} (h : s.SameRegisters u) (hs : exec i s = .next t) :
    ∃ bytes, t.output = s.output ++ bytes ∧ exec i u = .next (t.withSurroundings
      (if s.variant = .m64 then t.vseed else u.vseed) u.resets u.input (u.output ++ bytes)) := by
  obtain ⟨t₁, u', bytes, ht₁, hu, htout, huout, hvariant, hsame⟩ := exec_alike i h
  cases ht₁.symm.trans hs
  obtain ⟨-, hinput, hresets, hvseed⟩ := (CommandEffect.of_exec hu).frame
  refine ⟨bytes, htout, ?_⟩
  rw [hu, hsame.eq_withSurroundings, huout, hinput, hresets]
  obtain h64 | h128 := variant_cases s.variant
  · rw [if_pos h64, hsame.vseed (hvariant.trans h64)]
  · rw [if_neg (by simp [h128]), hvseed (h.variant.symm.trans h128)]

/-- Settles O37: by the frame of the command's effect, and because the registers are the same when `vseed` does not
count. -/
theorem noSeedLaneOnM128 : Obligations.NoSeedLaneOnM128 := by
  intro i s t x h128 h
  obtain ⟨-, hinput, hresets, hvseed⟩ := (CommandEffect.of_exec h).frame
  have h64 : s.variant ≠ .m64 := by simp [h128]
  have hsame : s.SameRegisters { s with vseed := x } := ⟨rfl, rfl, fun h => absurd h h64, rfl, rfl, rfl⟩
  obtain ⟨bytes, hout, hx⟩ := exec_of_sameRegisters hsame h
  refine ⟨hvseed h128, ?_⟩
  rw [hx, if_neg h64, State.withSurroundings, ← hout, ← hinput, ← hresets]

/-- A command neither reads nor writes the bytes presented behind it. -/
theorem exec_withInput {i : Instr} {s t : State} (h : exec i s = .next t) (bytes : List Byte) :
    exec i (s.withInput bytes) = .next (t.withInput bytes) := by
  obtain ⟨-, -, hresets, hvseed⟩ := (CommandEffect.of_exec h).frame
  have hsame : s.SameRegisters (s.withInput bytes) := ⟨rfl, rfl, fun _ => rfl, rfl, rfl, rfl⟩
  obtain ⟨response, hout, hbytes⟩ := exec_of_sameRegisters hsame h
  have hkept : (if s.variant = .m64 then t.vseed else s.vseed) = t.vseed := by
    cases hvariant : s.variant with
    | m64 => rfl
    | m128 => exact (hvseed hvariant).symm
  rw [hbytes, State.withInput_vseed, hkept, State.withInput_resets, ← hresets, State.withInput_output, ← hout]
  rfl

end Sys2Proof.Machine
end

section
/-! PROOFS. The encoding (30_encoding.md R62 to R69): decoding an encoding, encoding what was decoded, and the command
stream that a step reads. -/

namespace Sys2Proof

/-! ### Decoding an encoding -/

theorem decode_opcodeInit_append (seed : Word) (rest : List Byte) :
    decode (0x01 :: (wordBytes seed ++ rest)) = .ok (.init seed, rest) := by
  rw [decode_init, decodeSeedFormat_of_le (by simp), List.take_left' (wordBytes_length seed),
    List.drop_left' (wordBytes_length seed), leWord_wordBytes]

theorem decode_opcodeWrite_append {payload : List Byte} (h : payload.length < 2 ^ 64) (rest : List Byte) :
    decode (0x02 :: (wordBytes (BitVec.ofNat 64 payload.length) ++ (payload ++ rest))) =
      .ok (.write payload, rest) := by
  have hlen : (BitVec.ofNat 64 payload.length).toNat = payload.length := by
    rw [BitVec.toNat_ofNat, Nat.mod_eq_of_lt h]
  have htake (tail : List Byte) :
      (leWord ((wordBytes (BitVec.ofNat 64 payload.length) ++ tail).take 8)).toNat = payload.length := by
    rw [List.take_left' (wordBytes_length _), leWord_wordBytes, hlen]
  rw [decode_write, decodeWriteFormat_of_le (by rw [htake]; simp), htake, ← List.drop_drop,
    List.drop_left' (wordBytes_length _), List.take_left, List.drop_left]

/-- Settles O39: the fields of each format are read back from their bytes. -/
theorem decodeOfEncode : Obligations.DecodeOfEncode := by
  intro i rest h
  cases i with
  | init seed => exact decode_opcodeInit_append seed rest
  | write payload =>
    rw [encode, List.cons_append, List.append_assoc]
    exact decode_opcodeWrite_append h rest
  | finish => exact decode_finish rest
  | finish128 => exact decode_finish128 rest
  | new => exact decode_opcodeInit_append 0 rest

/-! ### Encoding what was decoded -/

theorem decodeSeedFormat_of_lt {rest : List Byte} (h : rest.length < 8) :
    decodeSeedFormat rest = .error .incomplete := if_pos h

/-- Format `W` cut short, in its field `LEN` or in the payload (R69). -/
theorem decodeWriteFormat_of_lt {rest : List Byte} (h : rest.length < 8 + (leWord (rest.take 8)).toNat) :
    decodeWriteFormat rest = .error .incomplete := by
  by_cases hhead : rest.length < 8
  · exact if_pos hhead
  · have hbody : (rest.drop 8).length < (leWord (rest.take 8)).toNat := by rw [List.length_drop]; omega
    simp only [decodeWriteFormat, hhead, hbody, if_false, if_true]

/-- Everything the decoder can answer at an opcode byte: the two formats with operands, the two without, or an illegal
opcode (R66, R67). -/
theorem decode_cons_cases (op : Byte) (body : List Byte) :
    (op = 0x01 ∧ decode (op :: body) = decodeSeedFormat body) ∨
    (op = 0x02 ∧ decode (op :: body) = decodeWriteFormat body) ∨
    (op = 0x03 ∧ decode (op :: body) = .ok (.finish, body)) ∨
    (op = 0x04 ∧ decode (op :: body) = .ok (.finish128, body)) ∨
    ((op ≠ 0x01 ∧ op ≠ 0x02 ∧ op ≠ 0x03 ∧ op ≠ 0x04) ∧ decode (op :: body) = .error (.illegalOpcode op)) := by
  by_cases h1 : op = 0x01
  · exact .inl ⟨h1, h1 ▸ decode_init body⟩
  by_cases h2 : op = 0x02
  · exact .inr (.inl ⟨h2, h2 ▸ decode_write body⟩)
  by_cases h3 : op = 0x03
  · exact .inr (.inr (.inl ⟨h3, h3 ▸ decode_finish body⟩))
  by_cases h4 : op = 0x04
  · exact .inr (.inr (.inr (.inl ⟨h4, h4 ▸ decode_finish128 body⟩)))
  exact .inr (.inr (.inr (.inr ⟨⟨h1, h2, h3, h4⟩, decode_illegal body h1 h2 h3 h4⟩)))

theorem decodeSeedFormat_ok {body rest : List Byte} {i : Instr} (h : decodeSeedFormat body = .ok (i, rest)) :
    ∃ seed, i = .init seed ∧ body = wordBytes seed ++ rest := by
  by_cases hlen : body.length < 8
  · rw [decodeSeedFormat_of_lt hlen] at h
    cases h
  · have htake : (body.take 8).length = 8 := by rw [List.length_take]; omega
    rw [decodeSeedFormat_of_le (Nat.not_lt.1 hlen)] at h
    cases h
    exact ⟨_, rfl, by rw [wordBytes_leWord htake, List.take_append_drop]⟩

theorem decodeWriteFormat_ok {body rest : List Byte} {i : Instr} (h : decodeWriteFormat body = .ok (i, rest)) :
    ∃ payload, i = .write payload ∧ payload.length < 2 ^ 64 ∧
      body = wordBytes (BitVec.ofNat 64 payload.length) ++ payload ++ rest := by
  by_cases hlen : body.length < 8 + (leWord (body.take 8)).toNat
  · rw [decodeWriteFormat_of_lt hlen] at h
    cases h
  · have htake : (body.take 8).length = 8 := by rw [List.length_take]; omega
    have hpayload : ((body.drop 8).take (leWord (body.take 8)).toNat).length = (leWord (body.take 8)).toNat := by
      rw [List.length_take, List.length_drop]
      omega
    rw [decodeWriteFormat_of_le (Nat.not_lt.1 hlen)] at h
    cases h
    refine ⟨_, rfl, hpayload.trans_lt (leWord (body.take 8)).isLt, ?_⟩
    rw [hpayload, BitVec.ofNat_toNat, BitVec.setWidth_eq, wordBytes_leWord htake, List.append_assoc, ← List.drop_drop,
      List.take_append_drop, List.take_append_drop]

/-- Settles O40: each format's fields are the bytes of what was read from them. -/
theorem encodeOfDecode : Obligations.EncodeOfDecode := by
  intro bytes rest i h
  cases bytes with
  | nil => cases h
  | cons op body =>
    obtain ⟨rfl, hdec⟩ | ⟨rfl, hdec⟩ | ⟨rfl, hdec⟩ | ⟨rfl, hdec⟩ | ⟨-, hdec⟩ := decode_cons_cases op body <;>
      rw [hdec] at h
    · obtain ⟨seed, rfl, rfl⟩ := decodeSeedFormat_ok h
      exact ⟨trivial, rfl, rfl⟩
    · obtain ⟨payload, rfl, hlen, rfl⟩ := decodeWriteFormat_ok h
      exact ⟨hlen, rfl, rfl⟩
    · cases h
      exact ⟨trivial, rfl, rfl⟩
    · cases h
      exact ⟨trivial, rfl, rfl⟩
    · cases h

/-- Settles O41: the bytes written out are the encodings of the commands. -/
theorem sampleWordsDecode : Obligations.SampleWordsDecode := by
  have hwrite : (Instr.write [0x61, 0x62]).WellFormed := show 2 < 2 ^ 64 by decide
  exact ⟨decodeOfEncode (.init 0x0123456789ABCDEF) [] trivial, decodeOfEncode (.write [0x61, 0x62]) [] hwrite,
    decodeOfEncode .finish [] trivial, decodeOfEncode .finish128 [] trivial⟩

theorem decodeSeedFormat_ne_illegal (body : List Byte) (op : Byte) :
    decodeSeedFormat body ≠ .error (.illegalOpcode op) := by
  unfold decodeSeedFormat
  split <;> simp

theorem decodeWriteFormat_ne_illegal (body : List Byte) (op : Byte) :
    decodeWriteFormat body ≠ .error (.illegalOpcode op) := by
  simp only [decodeWriteFormat]
  split
  · simp
  split <;> simp

/-- An illegal opcode stands at the front of the stream, whatever follows it. -/
theorem decode_append_of_illegal {bytes : List Byte} {op : Byte} (h : decode bytes = .error (.illegalOpcode op))
    (later : List Byte) : bytes ≠ [] ∧ decode (bytes ++ later) = .error (.illegalOpcode op) := by
  cases bytes with
  | nil => cases h
  | cons op' body =>
    refine ⟨List.cons_ne_nil _ _, ?_⟩
    obtain ⟨-, hdec⟩ | ⟨-, hdec⟩ | ⟨-, hdec⟩ | ⟨-, hdec⟩ | ⟨⟨h1, h2, h3, h4⟩, hdec⟩ := decode_cons_cases op' body <;>
      rw [hdec] at h
    · exact absurd h (decodeSeedFormat_ne_illegal body op)
    · exact absurd h (decodeWriteFormat_ne_illegal body op)
    · cases h
    · cases h
    · cases h
      exact decode_illegal (body ++ later) h1 h2 h3 h4

namespace Machine

/-! ### The step on a command stream -/

theorem step_of_decode_incomplete {s : State} (h : decode s.input = .error .incomplete) : step s = .next s := by
  simp only [step, fetch, h]

/-- Settles O42: the command the decoder reads is well-formed by O40, and the step is its `exec`. -/
theorem stepRunsTheDecodedCommand : Obligations.StepRunsTheDecodedCommand := by
  intro s i rest h
  obtain ⟨hwf, -, -⟩ := encodeOfDecode _ _ _ h
  exact ⟨hwf, step_of_decode_ok h⟩

/-- Settles O43: the byte is none of the four opcodes, so the decoder calls it illegal. -/
theorem illegalOpcodeIsAnsweredAndSkipped : Obligations.IllegalOpcodeIsAnsweredAndSkipped := by
  intro s op rest hop hin
  have hne (legal : Byte) (h0 : legal ≠ 0x00) (hlegal : legal.toNat < 5) : op ≠ legal := by
    rintro rfl
    exact hop.elim h0 (fun h5 => absurd hlegal (Nat.not_lt.2 h5))
  have hdec : decode s.input = .error (.illegalOpcode op) := by
    rw [hin]
    exact decode_illegal rest (hne _ (by decide) (by decide)) (hne _ (by decide) (by decide))
      (hne _ (by decide) (by decide)) (hne _ (by decide) (by decide))
  rw [step_of_decode_illegal hdec, hin]
  rfl

/-- Settles O45: the decoder answers that the command is incomplete. -/
theorem incompleteCommandWaits : Obligations.IncompleteCommandWaits := by
  refine fun s => ⟨fun hin => ?_, fun op rest hin hshort => ?_⟩ <;> apply step_of_decode_incomplete <;> rw [hin]
  · exact decode_nil
  · obtain ⟨rfl, hlen⟩ | ⟨rfl, hlen⟩ := hshort
    · rw [decode_init, decodeSeedFormat_of_lt hlen]
    · rw [decode_write, decodeWriteFormat_of_lt hlen]

/-- A command means what the command its bytes stand for means (R72, R103). -/
theorem exec_core (i : Instr) (s : State) : exec i.core s = exec i s := by
  cases i <;> rfl

/-- A step from a stream that begins with an encoded command is that command, on the state with its bytes consumed. -/
theorem step_encode_append {i : Instr} (h : i.WellFormed) (rest : List Byte) (s : State) :
    step (s.withInput (encode i ++ rest)) = exec i (s.withInput rest) := by
  rw [step_of_decode_ok (i := i.core) (rest := rest) (decodeOfEncode i rest h), exec_core]
  rfl

/-- Settles O46: by induction on the commands; the bytes of the later ones stand behind each command unread. -/
theorem commandStreamRunsInOrder : Obligations.CommandStreamRunsInOrder := by
  intro commands rest s hwf
  show runSteps commands.length (s.withInput (commands.flatMap encode ++ rest)) =
    runCommands commands (s.withInput rest)
  induction commands generalizing s with
  | nil => rfl
  | cons i is ih =>
    obtain ⟨t, ht⟩ := everyCommandEndsInANextState i s
    rw [List.flatMap_cons, List.append_assoc, List.length_cons, runSteps, runCommands,
      step_encode_append (hwf i List.mem_cons_self), exec_withInput ht, exec_withInput ht]
    exact ih t (fun j hj => hwf j (List.mem_cons_of_mem i hj))

/-- Settles O47: by what the fetch answers; a waiting step consumes nothing. -/
theorem presentingBytesLaterChangesNothingEarlier : Obligations.PresentingBytesLaterChangesNothingEarlier := by
  intro s t bytes hstep hne
  obtain ⟨i, rest, hdec, -⟩ | ⟨op, hdec, -⟩ | ⟨hdec, -⟩ := fetch_cases s
  · obtain ⟨hwf, hcore, hin⟩ := encodeOfDecode _ _ _ hdec
    rw [step_of_decode_ok hdec] at hstep
    obtain ⟨-, hinput, -, -⟩ := (CommandEffect.of_exec hstep).frame
    have hdec' : decode (s.present bytes).input = .ok (i, rest ++ bytes) := by
      rw [State.present_input, hin, List.append_assoc, decodeOfEncode i _ hwf, hcore]
    rw [step_of_decode_ok hdec']
    refine (exec_withInput hstep (rest ++ bytes)).trans ?_
    rw [State.present, hinput]
    rfl
  · obtain ⟨hnil, hdec'⟩ := decode_append_of_illegal hdec bytes
    rw [step_of_decode_illegal hdec] at hstep
    cases hstep
    rw [step_of_decode_illegal (s := s.present bytes) hdec', State.present_input,
      List.drop_append_of_le_length (List.length_pos_of_ne_nil hnil)]
    rfl
  · rw [step_of_decode_incomplete hdec] at hstep
    cases hstep
    exact absurd rfl hne

end Machine

end Sys2Proof
end

section
/-! PROOFS. What a finalisation reads (43_finish64.md and 44_finish128.md, section 5): which tail steps run and where,
that no dead cell is read, and which lanes matter below 32 bytes. -/

namespace Sys2Proof.Machine

/-! ### The tail steps that run -/

/-- The tail step of width `2 ^ j`, entered with the cursor at the digits of the tail length above digit `j`: it runs
when digit `j` is 1, and leaves the cursor at the digits from `j` up. -/
theorem tailStep_digit {width j : Nat} (hwidth : width = 2 ^ j) {f : Memory → Work → Work} (hf : TailLocal width f)
    (m : Memory) (tailEnd : Nat) (w : Lanes) :
    tailStep tailEnd width (f m) { w := w, ptr := tailEnd / 2 ^ (j + 1) * 2 ^ (j + 1) } =
      { w := if tailEnd.testBit j then (f m { w := w, ptr := tailEnd / 2 ^ (j + 1) * 2 ^ (j + 1) }).w else w
        ptr := tailEnd / 2 ^ j * 2 ^ j } := by
  have hhalf : tailEnd / 2 ^ (j + 1) * 2 ^ (j + 1) = 2 * (tailEnd / 2 ^ j / 2 * width) := by
    rw [Nat.pow_succ, ← Nat.div_div_eq_div_mul, hwidth]
    ring
  have hdigits : tailEnd / 2 ^ j * 2 ^ j =
      2 * (tailEnd / 2 ^ j / 2 * width) + tailEnd / 2 ^ j % 2 * width := by
    conv_lhs => rw [← Nat.div_add_mod (tailEnd / 2 ^ j) 2]
    rw [hwidth]
    ring
  have hlow : tailEnd % 2 ^ j < 2 ^ j := Nat.mod_lt _ (Nat.two_pow_pos j)
  have hsplit := Nat.div_add_mod' tailEnd (2 ^ j)
  rw [Nat.testBit_eq_decide_div_mod_eq]
  obtain hbit | hbit := Nat.mod_two_eq_zero_or_one (tailEnd / 2 ^ j) <;>
    rw [hbit] at hdigits ⊢ <;> rw [hhalf, hdigits]
  · have hleft : tailEnd - 2 * (tailEnd / 2 ^ j / 2 * width) < width := by omega
    rw [tailStep_neg hleft]
    simp
  · have hleft : width ≤ tailEnd - 2 * (tailEnd / 2 ^ j / 2 * width) := by omega
    rw [tailStep_pos hleft]
    exact congrArg (Work.mk _) ((hf.ptr m _).trans (by simp))

/-- A tail length below 32 cut below one of its binary digits. -/
theorem and_digit_masks : ∀ n < 32,
    n &&& 16 = n / 2 ^ 4 * 2 ^ 4 ∧ n &&& 24 = n / 2 ^ 3 * 2 ^ 3 ∧ n &&& 28 = n / 2 ^ 2 * 2 ^ 2 ∧
      n &&& 30 = n / 2 ^ 1 * 2 ^ 1 := by decide

/-- Five tail tests in turn, whatever the steps do to the lanes: they run by the digits of the tail length, each at the
offset made of the higher digits, and the cursor ends at the tail's end. -/
theorem tailSteps_eq {f16 f8 f4 f2 f1 : Memory → Work → Work} (h16 : TailLocal 16 f16) (h8 : TailLocal 8 f8)
    (h4 : TailLocal 4 f4) (h2 : TailLocal 2 f2) (h1 : TailLocal 1 f1) (m : Memory) {tailEnd : Nat} (w : Lanes)
    (h : tailEnd < 32) :
    tailStep tailEnd 1 (f1 m) (tailStep tailEnd 2 (f2 m) (tailStep tailEnd 4 (f4 m) (tailStep tailEnd 8 (f8 m)
      (tailStep tailEnd 16 (f16 m) { w := w, ptr := 0 })))) =
      let w16 := if tailEnd.testBit 4 then (f16 m { w := w, ptr := 0 }).w else w
      let w8 := if tailEnd.testBit 3 then (f8 m { w := w16, ptr := tailEnd &&& 16 }).w else w16
      let w4 := if tailEnd.testBit 2 then (f4 m { w := w8, ptr := tailEnd &&& 24 }).w else w8
      let w2 := if tailEnd.testBit 1 then (f2 m { w := w4, ptr := tailEnd &&& 28 }).w else w4
      let w1 := if tailEnd.testBit 0 then (f1 m { w := w2, ptr := tailEnd &&& 30 }).w else w2
      { w := w1, ptr := tailEnd } := by
  have hzero : tailEnd / 2 ^ (4 + 1) * 2 ^ (4 + 1) = 0 := by omega
  have hend : tailEnd / 2 ^ 0 * 2 ^ 0 = tailEnd := by omega
  obtain ⟨h16', h24, h28, h30⟩ := and_digit_masks tailEnd h
  have hfirst := tailStep_digit (width := 16) (j := 4) rfl h16 m tailEnd w
  rw [hzero] at hfirst
  rw [hfirst, tailStep_digit (width := 8) (j := 3) rfl h8, tailStep_digit (width := 4) (j := 2) rfl h4, tailStep_digit (width := 2) (j := 1) rfl h2,
    tailStep_digit (width := 1) (j := 0) rfl h1, h16', h24, h28, h30, hend]

/-- Settles O26: both variants test the same five widths. -/
theorem tailStepsAreTheBitsOfTheTailLength : Obligations.TailStepsAreTheBitsOfTheTailLength := fun m _ w h =>
  ⟨tailSteps_eq tailLocal_tail16_64 tailLocal_tail8_64 tailLocal_tail4_64 tailLocal_tail2_64 tailLocal_tail1_64 m w h,
    tailSteps_eq tailLocal_tail16_128 tailLocal_tail8_128 tailLocal_tail4_128 tailLocal_tail2_128 tailLocal_tail1_128
      m w h⟩

/-! ### No dead cell is read -/

theorem tails64_congr {tailEnd : Nat} {m m' : Memory} (h : sameLive tailEnd m m') (x : Work) :
    tails64 m tailEnd x = tails64 m' tailEnd x := by
  simp only [tails64, tailStep_congr tailLocal_tail16_64 h, tailStep_congr tailLocal_tail8_64 h,
    tailStep_congr tailLocal_tail4_64 h, tailStep_congr tailLocal_tail2_64 h, tailStep_congr tailLocal_tail1_64 h]

theorem tails128_congr {tailEnd : Nat} {m m' : Memory} (h : sameLive tailEnd m m') (x : Work) :
    tails128 m tailEnd x = tails128 m' tailEnd x := by
  simp only [tails128, tailStep_congr tailLocal_tail16_128 h, tailStep_congr tailLocal_tail8_128 h,
    tailStep_congr tailLocal_tail4_128 h, tailStep_congr tailLocal_tail2_128 h, tailStep_congr tailLocal_tail1_128 h]

theorem final64_congr {total : Word} {m m' : Memory} (h : sameLive (fillOf total) m m') (v : Lanes) (vseed : Word) :
    final64 v vseed m total = final64 v vseed m' total := by
  rw [final64, final64, tails64_congr h]

theorem final128_congr {total : Word} {m m' : Memory} (h : sameLive (fillOf total) m m') (v : Lanes) :
    final128 v m total = final128 v m' total := by
  rw [final128, final128, tails128_congr h]

theorem State.SameAccumulator.finishDigest_eq {s t : State} (h : s.SameAccumulator t) :
    s.finishDigest = t.finishDigest := by
  unfold State.finishDigest
  rw [← h.variant, ← h.v, ← h.vseed, ← h.total, final64_congr h.live, final128_congr h.live]

theorem State.SameAccumulator.finish128Digest_eq {s t : State} (h : s.SameAccumulator t) :
    s.finish128Digest = t.finish128Digest := by
  rw [State.finish128Digest, State.finish128Digest, ← h.v, ← h.total, final128_congr h.live]

/-- Settles O27: the tail steps read live cells, and nothing else of a finalisation reads the buffer. -/
theorem finalisationReadsLiveCellsOnly : Obligations.FinalisationReadsLiveCellsOnly :=
  fun _ _ h => ⟨h.finishDigest_eq, h.finish128Digest_eq⟩

/-! ### The lanes that matter below 32 bytes -/

/-- Working registers that agree on what the tail steps of `M64` read besides the buffer. -/
structure Work.AgreeOnLane0 (x y : Work) : Prop where
  ptr : x.ptr = y.ptr
  v0 : x.w.v0 = y.w.v0

/-- Working registers that agree on what the tail steps of `M128` read besides the buffer. -/
structure Work.AgreeOnLanes01 (x y : Work) : Prop where
  ptr : x.ptr = y.ptr
  v0 : x.w.v0 = y.w.v0
  v1 : x.w.v1 = y.w.v1

/-- A threshold test keeps an agreement on the cursor that its step keeps. -/
theorem tailStep_agree {R : Work → Work → Prop} (hptr : ∀ {x y}, R x y → x.ptr = y.ptr) {f : Work → Work}
    (hf : ∀ {x y}, R x y → R (f x) (f y)) (tailEnd width : Nat) {x y : Work} (h : R x y) :
    R (tailStep tailEnd width f x) (tailStep tailEnd width f y) := by
  unfold tailStep
  rw [← hptr h]
  split
  · exact hf h
  · exact h

theorem tail16_64_agree (m : Memory) {x y : Work} (h : x.AgreeOnLane0 y) :
    (tail16_64 m x).AgreeOnLane0 (tail16_64 m y) := by
  obtain ⟨⟨a, b, c, d⟩, p⟩ := x
  obtain ⟨⟨a', b', c', d'⟩, p'⟩ := y
  obtain ⟨rfl, rfl⟩ := h
  rw [tail16_64_eq, tail16_64_eq]
  exact ⟨rfl, rfl⟩

theorem absorb64_agree (width amount : Nat) (m : Memory) {x y : Work} (h : x.AgreeOnLane0 y) :
    (absorb64 width amount m x).AgreeOnLane0 (absorb64 width amount m y) := by
  obtain ⟨⟨a, b, c, d⟩, p⟩ := x
  obtain ⟨⟨a', b', c', d'⟩, p'⟩ := y
  obtain ⟨rfl, rfl⟩ := h
  rw [absorb64_eq, absorb64_eq]
  exact ⟨rfl, rfl⟩

theorem tail16_128_agree (m : Memory) {x y : Work} (h : x.AgreeOnLanes01 y) :
    (tail16_128 m x).AgreeOnLanes01 (tail16_128 m y) := by
  obtain ⟨⟨a, b, c, d⟩, p⟩ := x
  obtain ⟨⟨a', b', c', d'⟩, p'⟩ := y
  obtain ⟨rfl, rfl, rfl⟩ := h
  rw [tail16_128_eq, tail16_128_eq]
  exact ⟨rfl, rfl, rfl⟩

theorem absorb128Lane0_agree (width amount : Nat) (m : Memory) {x y : Work} (h : x.AgreeOnLanes01 y) :
    (absorb128Lane0 width amount m x).AgreeOnLanes01 (absorb128Lane0 width amount m y) := by
  obtain ⟨⟨a, b, c, d⟩, p⟩ := x
  obtain ⟨⟨a', b', c', d'⟩, p'⟩ := y
  obtain ⟨rfl, rfl, rfl⟩ := h
  rw [absorb128Lane0_eq, absorb128Lane0_eq]
  exact ⟨rfl, rfl, rfl⟩

theorem absorb128Lane1_agree (width amount : Nat) (m : Memory) {x y : Work} (h : x.AgreeOnLanes01 y) :
    (absorb128Lane1 width amount m x).AgreeOnLanes01 (absorb128Lane1 width amount m y) := by
  obtain ⟨⟨a, b, c, d⟩, p⟩ := x
  obtain ⟨⟨a', b', c', d'⟩, p'⟩ := y
  obtain ⟨rfl, rfl, rfl⟩ := h
  rw [absorb128Lane1_eq, absorb128Lane1_eq]
  exact ⟨rfl, rfl, rfl⟩

theorem tails64_agree (m : Memory) (tailEnd : Nat) {x y : Work} (h : x.AgreeOnLane0 y) :
    (tails64 m tailEnd x).AgreeOnLane0 (tails64 m tailEnd y) :=
  tailStep_agree (·.ptr) (absorb64_agree 1 37 m) _ _ <| tailStep_agree (·.ptr) (absorb64_agree 2 48 m) _ _ <|
    tailStep_agree (·.ptr) (absorb64_agree 4 26 m) _ _ <| tailStep_agree (·.ptr) (absorb64_agree 8 55 m) _ _ <|
    tailStep_agree (·.ptr) (tail16_64_agree m) _ _ h

theorem tails128_agree (m : Memory) (tailEnd : Nat) {x y : Work} (h : x.AgreeOnLanes01 y) :
    (tails128 m tailEnd x).AgreeOnLanes01 (tails128 m tailEnd y) :=
  tailStep_agree (·.ptr) (absorb128Lane1_agree 1 58 m) _ _ <|
    tailStep_agree (·.ptr) (absorb128Lane0_agree 2 22 m) _ _ <|
    tailStep_agree (·.ptr) (absorb128Lane1_agree 4 46 m) _ _ <|
    tailStep_agree (·.ptr) (absorb128Lane0_agree 8 27 m) _ _ <| tailStep_agree (·.ptr) (tail16_128_agree m) _ _ h

theorem aval64_v0_congr {w w' : Lanes} (h : w.v0 = w'.v0) : (aval64 w).v0 = (aval64 w').v0 := by
  obtain ⟨a, b, c, d⟩ := w
  obtain ⟨a', b', c', d'⟩ := w'
  obtain rfl := h
  rw [aval64_eq, aval64_eq]

theorem aval128_congr {w w' : Lanes} (h0 : w.v0 = w'.v0) (h1 : w.v1 = w'.v1) :
    (aval128 w).v0 = (aval128 w').v0 ∧ (aval128 w).v1 = (aval128 w').v1 := by
  obtain ⟨a, b, c, d⟩ := w
  obtain ⟨a', b', c', d'⟩ := w'
  obtain rfl := h0
  obtain rfl := h1
  rw [aval128_eq, aval128_eq]
  exact ⟨rfl, rfl⟩

theorem bulk64_of_short {total : Word} (h : total.toNat < 32) (vseed : Word) (w : Lanes) : bulk64 vseed total w = w := by
  rw [bulk64_eq, if_neg (Nat.not_le.2 h)]

theorem bulk128_of_short {total : Word} (h : total.toNat < 32) (w : Lanes) : bulk128 total w = w := by
  simp only [bulk128, bulkRuns_iff, if_neg (Nat.not_le.2 h)]

/-- Settles O28: the bulk part does not run, the tail steps and the avalanche keep the agreement. -/
theorem shortStreamsIgnoreTheOtherLanes : Obligations.ShortStreamsIgnoreTheOtherLanes := by
  intro v v' vseed vseed' total m m' hshort hlive h0
  refine ⟨?_, fun h1 => ?_⟩
  · rw [final64_congr hlive, final64, final64, bulk64_of_short hshort, bulk64_of_short hshort]
    have htails := tails64_agree m' (fillOf total) (x := { w := v, ptr := 0 }) (y := { w := v', ptr := 0 }) ⟨rfl, h0⟩
    exact aval64_v0_congr htails.v0
  · rw [final128_congr hlive, final128, final128, bulk128_of_short hshort, bulk128_of_short hshort]
    have htails := tails128_agree m' (fillOf total) (x := { w := v, ptr := 0 }) (y := { w := v', ptr := 0 }) ⟨rfl, h0, h1⟩
    exact aval128_congr htails.v0 htails.v1

end Sys2Proof.Machine
end

section
/-! PROOFS. The cases of `WRITE` (42_write.md, section 3): what it answers before `INIT`, that it completes and keeps the
contract of its copies, and the three ways a payload meets the block boundary. -/

namespace Sys2Proof.Machine

/-- Settles O8: the refusal emits `02` and changes nothing else. -/
theorem writeBeforeInitIsRefused : Obligations.WriteBeforeInitIsRefused :=
  fun payload _ hinit => exec_write_of_not_initd payload hinit

/-- Settles O15: R111 answers on every buffer, which it would not if one of its copies left the contract. -/
theorem writeCopiesStayInContract : Obligations.WriteCopiesStayInContract := fun payload s =>
  let ⟨_, _, habsorb⟩ := absorb_frame_total payload s
  ⟨_, habsorb⟩

/-- An accepted `WRITE` written out: what R111 leaves, and `00` emitted. -/
theorem exec_write_eq {payload : List Byte} {s : State} {l : Lanes} {m : Memory} (hinit : s.initd = true)
    (hrange : s.total.toNat + payload.length ≤ 2 ^ 64 - 1)
    (h : absorb payload s = some { s with v := l, buf := m, total := s.total + BitVec.ofNat 64 payload.length }) :
    exec (.write payload) s = .next { s with
      v := l, buf := m, total := s.total + BitVec.ofNat 64 payload.length, output := s.output ++ [0x00] } :=
  exec_write_of_absorb hinit hrange h

/-- Settles O10: R111 answers, and carries `VSEED` along unread. -/
theorem writeCompletes : Obligations.WriteCompletes := by
  intro payload s hinit hrange
  obtain ⟨l, m, habsorb⟩ := absorb_frame_total payload s
  refine ⟨l, m, exec_write_eq hinit hrange habsorb, fun x => ?_⟩
  have hx : absorb payload { s with vseed := x } =
      some { s with vseed := x, v := l, buf := m, total := s.total + BitVec.ofNat 64 payload.length } := by
    have := absorb_withSurroundings payload s x s.resets s.input s.output
    rwa [habsorb] at this
  exact exec_write_eq (s := { s with vseed := x }) hinit hrange hx

/-! ### A payload that does not complete the block -/

/-- R111 copies such a payload behind the buffered bytes, at every fill, 0 included. -/
theorem absorb_of_fits {payload : List Byte} {s : State} (h : s.fill + payload.length < 32) :
    absorb payload s = some { s with
      buf := putCells s.buf s.fill payload, total := s.total + BitVec.ofNat 64 payload.length } := by
  by_cases h0 : s.fill = 0
  · have hblocks : payload.length / 32 = 0 := by omega
    rw [absorb_of_aligned h0, h0]
    by_cases hpos : 0 < payload.length
    · have hcopy := boundedCopy_eq (c := payload) (s := 0) (d := 0) (n := payload.length) s.buf (by omega) (by omega)
        (by omega)
      rw [List.drop_zero, List.take_length] at hcopy
      simp only [absorbAligned, Nat.sub_zero, hblocks, Nat.mul_zero, Nat.add_zero, State.withLanes_buf,
        State.addTotal_buf, hcopy, hpos, if_true]
      rfl
    · obtain rfl := List.eq_nil_of_length_eq_zero (Nat.eq_zero_of_not_pos hpos)
      rfl
  · exact absorb_of_short h0 h

/-- Settles O12: the payload's bytes are copied to the cells behind the buffered ones. -/
theorem writeBuffersShortPayload : Obligations.WriteBuffersShortPayload := by
  intro payload s hinit hm hrange hshort
  obtain ⟨-, hmoved, hframe⟩ := putCells_spec payload s.buf s.fill hm (Nat.le_of_lt hshort)
  refine ⟨_, exec_write_eq hinit hrange (absorb_of_fits hshort), fun j hj => ?_, hframe⟩
  rw [List.getElem?_eq_getElem hj]
  exact congrArg some (hmoved j hj).symm

/-! ### A payload that completes the buffered block -/

/-- After a copy behind the first `r` cells, the cells from 0 are those bytes and then the copied ones. -/
theorem getElem?_memBytes_append {m : Memory} (hm : m.wf = true) {r : Nat} {bs : List Byte} (h : r + bs.length ≤ 32)
    {j : Nat} (hj : j < (memBytes m 0 r ++ bs).length) :
    (memBytes m 0 r ++ bs)[j]? = some ((putCells m r bs).read j) := by
  obtain ⟨-, hmoved, hframe⟩ := putCells_spec bs m r hm h
  rw [List.length_append, memBytes_length] at hj
  by_cases hlow : j < r
  · rw [List.getElem?_append_left (by simpa using hlow), memBytes_getElem? _ _ _ _ hlow, hframe j (.inl hlow),
      Nat.zero_add]
  · have hidx : r + (j - r) = j := by omega
    have hread := hmoved (j - r) (by omega)
    rw [hidx] at hread
    rw [List.getElem?_append_right (by simpa using hlow), memBytes_length, List.getElem?_eq_getElem (by omega), hread]

/-- R111 where the payload completes the buffered block: that block is mixed first, then the payload's whole blocks, and
the bytes left over go over the block just completed. -/
theorem absorb_full_spec {payload : List Byte} {s : State} (hm : s.buf.wf = true) (h0 : s.fill ≠ 0)
    (h : 32 ≤ s.fill + payload.length) :
    ∃ m, absorb payload s = some { s with
        v := mixStream s.variant (payload.drop (32 - s.fill)) ((payload.length - (32 - s.fill)) / 32)
          (mixPayload (constants s.variant) (memBytes s.buf 0 s.fill ++ payload.take (32 - s.fill)) 0 s.v)
        buf := m
        total := s.total + BitVec.ofNat 64 payload.length } ∧
      (∀ j, j < (s.fill + payload.length) % 32 → (streamTail (payload.drop (32 - s.fill)))[j]? = some (m.read j)) ∧
      (∀ a, (s.fill + payload.length) % 32 ≤ a →
        m.read a = (putCells s.buf s.fill (payload.take (32 - s.fill))).read a) := by
  have hlt := fill_lt s
  have htake : (payload.take (32 - s.fill)).length = 32 - s.fill := by rw [List.length_take]; omega
  have hwf := (putCells_spec (payload.take (32 - s.fill)) s.buf s.fill hm (by omega)).1
  have hblock : mixMemory (constants s.variant) (putCells s.buf s.fill (payload.take (32 - s.fill))) s.v =
      mixPayload (constants s.variant) (memBytes s.buf 0 s.fill ++ payload.take (32 - s.fill)) 0 s.v :=
    mixMemory_eq s.v (fun j hj => getElem?_memBytes_append hm (by omega) hj)
      (by rw [List.length_append, memBytes_length]; omega)
  have hsplit : 32 - s.fill + (payload.length - (32 - s.fill)) = payload.length := by omega
  have hrest : (payload.length - (32 - s.fill)) % 32 = (s.fill + payload.length) % 32 := by omega
  obtain ⟨m, habsorb, -, hmoved, hframe⟩ := absorbAligned_spec (payload := payload) (p := 32 - s.fill)
    (s := ((s.withBuf (putCells s.buf s.fill (payload.take (32 - s.fill)))).addTotal (32 - s.fill)).withLanes
      (mixMemory (constants s.variant) (putCells s.buf s.fill (payload.take (32 - s.fill))) s.v)) hwf (by omega)
  rw [hrest] at hmoved hframe
  refine ⟨m, ?_, hmoved, hframe⟩
  rw [absorb_of_full h0 h, habsorb, State.withLanes_total, State.addTotal_total, State.withBuf_total, BitVec.add_assoc,
    ← BitVec.ofNat_add, hsplit, State.withLanes_v, hblock]
  rfl

/-- Settles O13: by the effect of R111, with the dead cells those of the block just completed. -/
theorem writeCompletesBufferedBlock : Obligations.WriteCompletesBufferedBlock := by
  intro payload s hinit hm hrange h0 hfull
  change s.fill ≠ 0 at h0
  change 32 ≤ s.fill + payload.length at hfull
  have hlt := fill_lt s
  have htake : (payload.take (32 - s.fill)).length = 32 - s.fill := by rw [List.length_take]; omega
  obtain ⟨m, habsorb, hlive, hdead⟩ := absorb_full_spec hm h0 hfull
  obtain ⟨-, hmoved, hkept⟩ := putCells_spec (payload.take (32 - s.fill)) s.buf s.fill hm (by omega)
  refine ⟨m, exec_write_eq hinit hrange habsorb, hlive, fun a ha ha32 => ?_⟩
  change m.read a = if a < s.fill then s.buf.read a else payload.getD (a - s.fill) 0
  rw [hdead a ha]
  split
  · next hlow => exact hkept a (.inl hlow)
  · next hlow =>
    have hidx : s.fill + (a - s.fill) = a := by omega
    have hread := hmoved (a - s.fill) (by omega)
    rw [hidx, List.getElem_take] at hread
    rw [hread, List.getD_eq_getElem]

/-! ### A payload on a block boundary -/

/-- Settles O14: R111 goes straight to the payload's whole blocks and copies what is left over. -/
theorem writeMixesAlignedBlocks : Obligations.WriteMixesAlignedBlocks := by
  intro payload s hinit hm hrange h0 _
  obtain ⟨m, habsorb, -, hlive, hdead⟩ := absorbAligned_spec (payload := payload) (p := 0) hm (Nat.zero_le _)
  simp only [List.drop_zero, Nat.sub_zero] at habsorb hlive hdead
  rw [← absorb_of_aligned h0] at habsorb
  refine ⟨m, exec_write_eq hinit hrange habsorb, fun j hj => ?_, hdead⟩
  rw [← hlive j hj, streamTail, List.getElem?_drop]

end Sys2Proof.Machine
end

section
/-! PROOFS. `WRITE` and the stream (10_state.md R30, 42_write.md R116, 45_properties.md R171): `WRITE` against `PutByte`,
what no later command can tell apart, chunking invariance, and the stream an accumulator stands for. -/

namespace Sys2Proof.Machine

/-! ### The same accumulator in canonical buffers -/

/-- The same accumulator, held in canonical buffers: dead cells may differ. -/
structure State.Alike (s t : State) : Prop where
  same : s.SameAccumulator t
  wf_left : s.buf.wf = true
  wf_right : t.buf.wf = true

namespace State

variable {s t u : State}

theorem SameAccumulator.fill (h : s.SameAccumulator t) : s.fill = t.fill := by
  rw [State.fill, State.fill, h.total]

theorem SameAccumulator.trans (h : s.SameAccumulator t) (h' : t.SameAccumulator u) : s.SameAccumulator u :=
  ⟨h.variant.trans h'.variant, h.v.trans h'.v, h.vseed.trans h'.vseed, h.total.trans h'.total, h.initd.trans h'.initd,
    fun j hj => (h.live j hj).trans (h'.live j (h.fill ▸ hj))⟩

theorem SameAccumulator.symm (h : s.SameAccumulator t) : t.SameAccumulator s :=
  ⟨h.variant.symm, h.v.symm, h.vseed.symm, h.total.symm, h.initd.symm, fun j hj => (h.live j (h.fill ▸ hj)).symm⟩

theorem Alike.trans (h : s.Alike t) (h' : t.Alike u) : s.Alike u :=
  ⟨h.same.trans h'.same, h.wf_left, h'.wf_right⟩

theorem Alike.symm (h : s.Alike t) : t.Alike s := ⟨h.same.symm, h.wf_right, h.wf_left⟩

theorem Alike.respond (h : s.Alike t) (r : Response) : (s.respond r).Alike (t.respond r) :=
  ⟨⟨h.same.variant, h.same.v, h.same.vseed, h.same.total, h.same.initd, h.same.live⟩, h.wf_left, h.wf_right⟩

/-- The buffered bytes are live. -/
theorem SameAccumulator.memBytes_eq (h : s.SameAccumulator t) : memBytes s.buf 0 s.fill = memBytes t.buf 0 t.fill := by
  rw [memBytes, memBytes, ← h.fill]
  refine List.map_congr_left fun j hj => ?_
  rw [Nat.zero_add]
  exact h.live j (List.mem_range.1 hj)

end State

/-- Two buffers whose first cells are the bytes of one list have the same live cells. -/
theorem sameLive_of_getElem? {fill : Nat} {m m' : Memory} {S : List Byte} (h : ∀ j, j < fill → S[j]? = some (m.read j))
    (h' : ∀ j, j < fill → S[j]? = some (m'.read j)) : sameLive fill m m' :=
  fun j hj => Option.some.inj ((h j hj).symm.trans (h' j hj))

/-! ### `WRITE` and `PutByte` -/

/-- `WRITE` and its bytes fed one by one to `PutByte` take in the same blocks and leave the same bytes over (R116). -/
theorem exec_write_alike_putBytes {payload : List Byte} {s : State} (hinit : s.initd = true) (hm : s.buf.wf = true)
    (hrange : s.total.toNat + payload.length ≤ 2 ^ 64 - 1) :
    ∃ t, exec (.write payload) s = .next t ∧ t.Alike (putBytes payload s) := by
  obtain ⟨m, habsorb, hwf, hlive⟩ := absorb_spec payload hm
  obtain ⟨m', hput, hwf', hlive'⟩ := putBytes_spec payload s hm
  have hsame : sameLive (s.addTotal payload.length).fill m m' := by
    rw [addTotal_fill]
    exact sameLive_of_getElem? hlive hlive'
  refine ⟨_, exec_write_eq hinit hrange habsorb, ?_⟩
  rw [hput]
  exact ⟨⟨rfl, rfl, rfl, rfl, rfl, hsame⟩, hwf, hwf'⟩

/-- Settles O18: both take in the buffered bytes and then the payload, block by block. -/
theorem writeIsByteAtATime : Obligations.WriteIsByteAtATime := by
  intro payload s hinit hm hrange
  obtain ⟨t, ht, halike⟩ := exec_write_alike_putBytes hinit hm hrange
  exact ⟨t, ht, halike.same⟩

theorem putBytes_append (a b : List Byte) (s : State) : putBytes (a ++ b) s = putBytes b (putBytes a s) := by
  induction a generalizing s with
  | nil => rfl
  | cons x a ih => exact ih (putByte x s)

/-! ### What no later command can tell apart -/

/-- Outcomes from `s` and from `t` that are next states with the same accumulator, each after the same bytes emitted. -/
def AnswerTogether (s t : State) (o p : Host.Outcome State Fault Refusal) : Prop :=
  ∃ (s' t' : State) (bytes : List Byte), o = .next s' ∧ p = .next t' ∧
    s'.output = s.output ++ bytes ∧ t'.output = t.output ++ bytes ∧ s'.Alike t'

section

variable {s t : State}

theorem answerTogether_respond {s' t' : State} (r : Response) (hs : s'.output = s.output) (ht : t'.output = t.output)
    (h : s'.Alike t') : AnswerTogether s t (.next (s'.respond r)) (.next (t'.respond r)) :=
  ⟨_, _, r.bytes, rfl, rfl, by rw [State.respond_output, hs], by rw [State.respond_output, ht], h.respond r⟩

theorem answerTogether_refuse (h : s.Alike t) (status : Status) :
    AnswerTogether s t (.next (s.refuse status)) (.next (t.refuse status)) :=
  answerTogether_respond _ rfl rfl h

theorem initAccumulator_alike (seed : Word) (h : s.SameAccumulator t) :
    (initAccumulator seed s).Alike (initAccumulator seed t) := by
  obtain ⟨hvariant, hv, hvseed, hbuf, htotal, hinitd⟩ := initAccumulator_sameRegisters seed h.variant
  have hvseed' : (initAccumulator seed s).vseed = (initAccumulator seed t).vseed := by
    cases hs : s.variant with
    | m64 => exact hvseed ((initAccumulator_variant seed s).trans hs)
    | m128 => rw [initAccumulator_of_m128 seed hs, initAccumulator_of_m128 seed (h.variant.symm.trans hs), h.vseed]
  exact ⟨⟨hvariant, hv, hvseed', htotal, hinitd, fun _ _ => by rw [hbuf]⟩,
    by rw [initAccumulator_buf, Memory.wf_zeroed], by rw [initAccumulator_buf, Memory.wf_zeroed]⟩

theorem exec_init_together (seed : Word) (h : s.Alike t) :
    AnswerTogether s t (exec (.init seed) s) (exec (.init seed) t) :=
  answerTogether_respond _ (initAccumulator_output seed s) (initAccumulator_output seed t)
    (initAccumulator_alike seed h.same)

theorem execWrite_together (payload : List Byte) (h : s.Alike t) :
    AnswerTogether s t (execWrite payload s) (execWrite payload t) := by
  obtain ⟨m, habsorb, hwf, hlive⟩ := absorb_spec payload h.wf_left
  obtain ⟨m', habsorb', hwf', hlive'⟩ := absorb_spec payload h.wf_right
  unfold execWrite
  rw [← h.same.initd, ← h.same.total]
  split
  · exact answerTogether_refuse h _
  split
  · exact answerTogether_refuse h _
  rw [← h.same.memBytes_eq, ← h.same.fill] at hlive' habsorb'
  have hsame : sameLive (s.addTotal payload.length).fill m m' := by
    rw [addTotal_fill]
    exact sameLive_of_getElem? hlive hlive'
  rw [habsorb, habsorb', ← h.same.variant, ← h.same.v, ← h.same.total]
  exact answerTogether_respond _ rfl rfl ⟨⟨rfl, rfl, h.same.vseed, rfl, h.same.initd, hsame⟩, hwf, hwf'⟩

theorem execFinish_together (h : s.Alike t) : AnswerTogether s t (execFinish s) (execFinish t) := by
  unfold execFinish
  rw [← h.same.initd, ← h.same.finishDigest_eq]
  split
  · exact answerTogether_refuse h _
  · exact answerTogether_respond _ rfl rfl h

theorem execFinish128_together (h : s.Alike t) : AnswerTogether s t (execFinish128 s) (execFinish128 t) := by
  unfold execFinish128
  rw [← h.same.variant, ← h.same.initd, ← h.same.finish128Digest_eq]
  split
  · exact answerTogether_refuse h _
  split
  · exact answerTogether_refuse h _
  · exact answerTogether_respond _ rfl rfl h

/-- No command tells two states with the same accumulator apart (R171). -/
theorem exec_together (i : Instr) (h : s.Alike t) : AnswerTogether s t (exec i s) (exec i t) := by
  cases i with
  | init seed => exact exec_init_together seed h
  | write payload => exact execWrite_together payload h
  | finish => exact execFinish_together h
  | finish128 => exact execFinish128_together h
  | new => exact exec_init_together 0 h

end

/-- No list of commands tells two states with the same accumulator apart. -/
theorem runCommands_together (is : List Instr) {s t : State} (h : s.Alike t) :
    AnswerTogether s t (runCommands is s) (runCommands is t) := by
  induction is generalizing s t with
  | nil => exact ⟨s, t, [], rfl, rfl, (List.append_nil _).symm, (List.append_nil _).symm, h⟩
  | cons i is ih =>
    obtain ⟨s₁, t₁, first, hs, ht, hsout, htout, halike⟩ := exec_together i h
    obtain ⟨s₂, t₂, rest, hs', ht', hsout', htout', halike'⟩ := ih halike
    refine ⟨s₂, t₂, first ++ rest, ?_, ?_, ?_, ?_, halike'⟩
    · rw [runCommands, hs, ← hs']
    · rw [runCommands, ht, ← ht']
    · rw [hsout', hsout, List.append_assoc]
    · rw [htout', htout, List.append_assoc]

/-- Two `WRITE`s and the `WRITE` of their payloads joined leave the same accumulator: both are the joined bytes fed one by
one. -/
theorem exec_write_append_alike {a b : List Byte} {s : State} (hinit : s.initd = true) (hm : s.buf.wf = true)
    (hrange : s.total.toNat + (a.length + b.length) ≤ 2 ^ 64 - 1) :
    ∃ t u w, exec (.write a) s = .next t ∧ exec (.write b) t = .next u ∧ exec (.write (a ++ b)) s = .next w ∧
      u.Alike w := by
  obtain ⟨t, ht, htp⟩ := exec_write_alike_putBytes (payload := a) hinit hm (by omega)
  obtain ⟨w, hw, hwp⟩ := exec_write_alike_putBytes (payload := a ++ b) hinit hm (by rwa [List.length_append])
  obtain ⟨m, hput, -, -⟩ := putBytes_spec a s hm
  have htotal : (putBytes a s).total.toNat = s.total.toNat + a.length := by
    rw [hput]
    exact addTotal_toNat (by omega)
  have hinit' : (putBytes a s).initd = true := by rw [hput, hinit]
  obtain ⟨u', hu', hup⟩ := exec_write_alike_putBytes (payload := b) hinit' htp.wf_right (by omega)
  obtain ⟨u, u'', -, hu, hu'', -, -, huu⟩ := exec_together (.write b) htp
  cases hu''.symm.trans hu'
  rw [putBytes_append] at hwp
  exact ⟨t, u, w, ht, hu, hw, huu.trans (hup.trans hwp.symm)⟩

/-- Settles O19: both ways leave the same accumulator, which no later command tells apart. -/
theorem chunkingInvariance : Obligations.ChunkingInvariance := by
  intro a b s hinit hm hrange
  obtain ⟨t, u, w, ht, hu, hw, halike⟩ := exec_write_append_alike hinit hm hrange
  refine ⟨t, u, w, ht, hu, hw, halike.same, fun later => ?_⟩
  obtain ⟨u', w', responses, hu', hw', huout, hwout, halike'⟩ := runCommands_together later halike
  exact ⟨u', w', responses, hu', hw', huout, hwout, halike'.same⟩

/-! ### The stream an accumulator stands for -/

theorem streamTail_append (S payload : List Byte) :
    streamTail S ++ payload = (S ++ payload).drop (32 * (S.length / 32)) := by
  rw [streamTail, List.drop_append_of_le_length (Nat.mul_div_le _ _)]

/-- The lanes of a longer stream: the blocks that the tail and the new bytes complete are mixed on. -/
theorem streamLanes_append (variant : Variant) (seed : Word) (S payload : List Byte) :
    streamLanes variant seed (S ++ payload) =
      mixStream variant (streamTail S ++ payload) ((S.length % 32 + payload.length) / 32)
        (streamLanes variant seed S) := by
  have hblocks : (S ++ payload).length / 32 = S.length / 32 + (S.length % 32 + payload.length) / 32 := by
    rw [List.length_append]
    omega
  rw [streamLanes, hblocks, mixStream_add, mixStream_append_left _ _ _ _ _ (Nat.mul_div_le _ _), ← streamTail_append,
    streamLanes]

theorem streamTail_streamTail_append (S payload : List Byte) :
    streamTail (streamTail S ++ payload) = streamTail (S ++ payload) := by
  rw [streamTail, List.length_append, streamTail_length, streamTail_append, List.drop_drop, streamTail,
    List.length_append]
  congr 1
  omega

theorem State.Represents.fill_eq {s : State} {seed : Word} {S : List Byte} (h : s.Represents seed S) :
    s.fill = S.length % 32 := by
  rw [State.fill_eq, h.total]

/-- The buffered bytes are the stream's tail. -/
theorem State.Represents.memBytes_eq {s : State} {seed : Word} {S : List Byte} (h : s.Represents seed S) :
    memBytes s.buf 0 s.fill = streamTail S := by
  apply List.ext_getElem?
  intro j
  rw [h.fill_eq]
  by_cases hj : j < S.length % 32
  · rw [memBytes_getElem? _ _ _ _ hj, Nat.zero_add, h.live j hj]
  · rw [List.getElem?_eq_none (by simpa using hj), List.getElem?_eq_none (by simpa using hj)]

/-- Settles O20: the blocks `WRITE` takes in are those that the stream's tail and the payload complete. -/
theorem writeExtendsTheStream : Obligations.WriteExtendsTheStream := by
  intro payload s seed S hinit hm hrep hrange
  obtain ⟨m, habsorb, hwf, hlive⟩ := absorb_spec payload hm
  have hrange' : s.total.toNat + payload.length ≤ 2 ^ 64 - 1 := by rwa [hrep.total]
  rw [hrep.memBytes_eq, hrep.fill_eq] at habsorb hlive
  refine ⟨_, exec_write_eq hinit hrange' habsorb, hwf, ?_, ?_, hrep.vseed, fun j hj => ?_⟩
  · rw [List.length_append, ← hrep.total]
    exact addTotal_toNat hrange'
  · rw [hrep.lanes]
    exact (streamLanes_append s.variant seed S payload).symm
  · rw [List.length_append] at hj
    rw [← streamTail_streamTail_append]
    exact hlive j (by omega)

end Sys2Proof.Machine
end

section
/-! PROOFS. The digest as a function of seed and stream (45_properties.md R171 to R175): finalising an accumulator that
stands for a stream, whatever the cuts, the empty stream, and finalisations in a row. -/

namespace Sys2Proof.Machine

/-! ### Commands on an accumulator that stands for a stream -/

/-- The state is initialised, its buffer is canonical, and its accumulator is that of a seed and a stream. -/
structure State.Holds (s : State) (seed : Word) (S : List Byte) : Prop where
  initd : s.initd = true
  wf : s.buf.wf = true
  represents : s.Represents seed S

theorem State.Represents.respond {s : State} {seed : Word} {S : List Byte} (h : s.Represents seed S) (r : Response) :
    (s.respond r).Represents seed S :=
  ⟨h.total, h.lanes, h.vseed, h.live⟩

theorem State.Holds.respond {s : State} {seed : Word} {S : List Byte} (h : s.Holds seed S) (r : Response) :
    (s.respond r).Holds seed S :=
  ⟨h.initd, h.wf, h.represents.respond r⟩

theorem streamLanes_nil (variant : Variant) (seed : Word) : streamLanes variant seed [] = seedLanes variant seed := rfl

/-- `INIT` starts the empty stream (R30). -/
theorem initAccumulator_holds (seed : Word) (s : State) : (initAccumulator seed s).Holds seed [] := by
  refine ⟨initAccumulator_initd seed s, by rw [initAccumulator_buf, Memory.wf_zeroed], ?_, ?_, fun h64 => ?_,
    fun _ hj => absurd hj (Nat.not_lt_zero _)⟩
  · rw [initAccumulator_total]
    rfl
  · rw [initAccumulator_variant, streamLanes_nil]
    cases h : s.variant with
    | m64 => rw [initAccumulator_of_m64 seed h]
    | m128 => rw [initAccumulator_of_m128 seed h]
  · rw [initAccumulator_variant] at h64
    rw [initAccumulator_of_m64 seed h64]

theorem exec_init_holds (seed : Word) (s : State) :
    ∃ t, exec (.init seed) s = .next t ∧ t.variant = s.variant ∧ t.output = s.output ++ [0x00] ∧ t.Holds seed [] :=
  ⟨_, exec_init seed s, initAccumulator_variant seed s, by rw [State.respondOk_output, initAccumulator_output]; rfl,
    (initAccumulator_holds seed s).respond _⟩

theorem exec_write_holds {payload S : List Byte} {s : State} {seed : Word} (h : s.Holds seed S)
    (hrange : S.length + payload.length ≤ 2 ^ 64 - 1) :
    ∃ t, exec (.write payload) s = .next t ∧ t.variant = s.variant ∧ t.output = s.output ++ [0x00] ∧
      t.Holds seed (S ++ payload) := by
  obtain ⟨l, m, habsorb⟩ := absorb_frame_total payload s
  obtain ⟨t, ht, hwf, hrep⟩ := writeExtendsTheStream payload s seed S h.initd h.wf h.represents hrange
  rw [← h.represents.total] at hrange
  cases (exec_write_eq h.initd hrange habsorb).symm.trans ht
  exact ⟨_, ht, rfl, rfl, h.initd, hwf, hrep⟩

/-- Any `WRITE`s within the bound extend the stream by their payloads in order. -/
theorem runCommands_writes_hold {seed : Word} (chunks : List (List Byte)) {S : List Byte} {s : State}
    (h : s.Holds seed S) (hrange : S.length + chunks.flatten.length ≤ 2 ^ 64 - 1) :
    ∃ t, runCommands (chunks.map .write) s = .next t ∧ t.variant = s.variant ∧ t.Holds seed (S ++ chunks.flatten) := by
  induction chunks generalizing S s with
  | nil => exact ⟨s, rfl, rfl, by rwa [List.flatten_nil, List.append_nil]⟩
  | cons chunk chunks ih =>
    rw [List.flatten_cons, List.length_append] at hrange
    obtain ⟨t, ht, hvariant, -, hholds⟩ := exec_write_holds (payload := chunk) h (by omega)
    obtain ⟨u, hu, hvariant', hholds'⟩ := ih hholds (by rw [List.length_append]; omega)
    refine ⟨u, ?_, hvariant'.trans hvariant, ?_⟩
    · rw [List.map_cons, runCommands, ht, ← hu]
    · rwa [List.flatten_cons, ← List.append_assoc]

/-! ### Finalising it -/

/-- The live cells of an accumulator are those of the buffer that holds its stream's tail. -/
theorem State.Represents.sameLive_tailMemory {s : State} {seed : Word} {S : List Byte} (h : s.Represents seed S) :
    sameLive (fillOf s.total) s.buf (tailMemory S) := by
  have hlt : (streamTail S).length ≤ 32 := by rw [streamTail_length]; omega
  obtain ⟨-, hmoved, -⟩ := putCells_spec (streamTail S) Memory.zeroed 0 Memory.wf_zeroed (by rwa [Nat.zero_add])
  intro j hj
  rw [show fillOf s.total = S.length % 32 from h.fill_eq] at hj
  have hj' : j < (streamTail S).length := by rwa [streamTail_length]
  have hread := hmoved j hj'
  rw [Nat.zero_add] at hread
  have hlive := h.live j hj
  rw [List.getElem?_eq_getElem hj', ← hread] at hlive
  exact (Option.some.inj hlive).symm

theorem State.Represents.total_eq {s : State} {seed : Word} {S : List Byte} (h : s.Represents seed S) :
    BitVec.ofNat 64 S.length = s.total := by
  rw [← h.total, BitVec.ofNat_toNat, BitVec.setWidth_eq]

theorem State.Represents.final128_eq {s : State} {seed : Word} {S : List Byte} (h : s.Represents seed S)
    (h128 : s.variant = .m128) :
    final128 s.v s.buf s.total = final128 (streamLanes .m128 seed S) (tailMemory S) (BitVec.ofNat 64 S.length) := by
  rw [h.total_eq, h.lanes, h128, final128_congr h.sameLive_tailMemory]

/-- `FINISH` answers the digest function of seed and stream (R172). -/
theorem State.Represents.finishDigest_eq {s : State} {seed : Word} {S : List Byte} (h : s.Represents seed S) :
    s.finishDigest = finishWords s.variant seed S := by
  cases hvariant : s.variant with
  | m64 =>
    rw [State.finishDigest_of_m64 hvariant, finishWords, digest64, h.total_eq, h.lanes, h.vseed hvariant, hvariant,
      final64_congr h.sameLive_tailMemory]
  | m128 => rw [State.finishDigest_of_m128 hvariant, h.final128_eq hvariant, finishWords, digest128]

/-- `FINISH128` answers the pair (R172). -/
theorem State.Represents.finish128Digest_eq {s : State} {seed : Word} {S : List Byte} (h : s.Represents seed S)
    (h128 : s.variant = .m128) : s.finish128Digest = [(digest128 seed S).1, (digest128 seed S).2] := by
  rw [State.finish128Digest, h.final128_eq h128, digest128]

theorem exec_finish_eq_of_holds {s : State} {seed : Word} {S : List Byte} (h : s.Holds seed S) :
    exec .finish s = .next { s with
      output := s.output ++ 0x00 :: (finishWords s.variant seed S).flatMap wordBytes } := by
  rw [exec_finish_of_initd h.initd, h.represents.finishDigest_eq]
  rfl

/-- A finalisation leaves the stream held. -/
theorem exec_finish_holds {s : State} {seed : Word} {S : List Byte} (h : s.Holds seed S) :
    ∃ t, exec .finish s = .next t ∧ t.variant = s.variant ∧
      t.output = s.output ++ 0x00 :: (finishWords s.variant seed S).flatMap wordBytes ∧ t.Holds seed S :=
  ⟨_, exec_finish_eq_of_holds h, rfl, rfl, h.respond ⟨.ok, finishWords s.variant seed S⟩⟩

/-- Settles O32: `INIT` starts the empty stream, the `WRITE`s append to it, and both finalisations answer the digest
function of what results. -/
theorem digestIsAFunctionOfSeedAndStream : Obligations.DigestIsAFunctionOfSeedAndStream := by
  intro seed chunks s hrange
  obtain ⟨t, ht, hvariant, -, hholds⟩ := exec_init_holds seed s
  obtain ⟨u, hu, hvariant', hholds'⟩ := runCommands_writes_hold chunks hholds (by rwa [List.length_nil, Nat.zero_add])
  rw [List.nil_append] at hholds'
  have hkept : u.variant = s.variant := hvariant'.trans hvariant
  refine ⟨u, ?_, hholds'.initd, hkept, hholds'.represents, ?_, fun h128 => ?_⟩
  · rw [runCommands, ht, ← hu]
  · rw [← hkept]
    exact exec_finish_eq_of_holds hholds'
  · have hu128 : u.variant = .m128 := hkept.trans h128
    rw [exec_finish128_of_initd hu128 hholds'.initd, hholds'.represents.finish128Digest_eq hu128,
      State.respondOk_pair]

/-- Settles O31: the stream held is `a` at the first `FINISH`, which leaves it, and `a ‖ b` at the second. -/
theorem finishDoesNotEndTheStream : Obligations.FinishDoesNotEndTheStream := by
  intro seed a b s hrange
  obtain ⟨t, ht, htvariant, htout, htholds⟩ := exec_init_holds seed s
  obtain ⟨u, hu, huvariant, huout, huholds⟩ :=
    exec_write_holds (payload := a) htholds (by rw [List.length_nil]; omega)
  rw [List.nil_append] at huholds
  obtain ⟨v, hv, hvvariant, hvout, hvholds⟩ := exec_finish_holds huholds
  obtain ⟨w, hw, hwvariant, hwout, hwholds⟩ := exec_write_holds (payload := b) hvholds hrange
  obtain ⟨x, hx, -, hxout, -⟩ := exec_finish_holds hwholds
  refine ⟨x, ?_, ?_⟩
  · simp only [runCommands, ht, hu, hv, hw, hx]
  · rw [hxout, hwout, hvout, huout, htout, hwvariant, hvvariant, huvariant, htvariant]
    simp only [List.append_assoc, List.cons_append, List.nil_append]

/-! ### The empty stream -/

theorem tails64_zero (m : Memory) (w : Lanes) : tails64 m 0 { w := w, ptr := 0 } = { w := w, ptr := 0 } := by
  simp [tails64, tailStep]

theorem tails128_zero (m : Memory) (w : Lanes) : tails128 m 0 { w := w, ptr := 0 } = { w := w, ptr := 0 } := by
  simp [tails128, tailStep]

/-- Nothing of the empty stream is mixed: only the avalanche runs (R173). -/
theorem final64_zero (v : Lanes) (vseed : Word) (m : Memory) : final64 v vseed m 0 = aval64 v := by
  rw [final64, bulk64_of_short (by decide), show fillOf 0 = 0 from rfl, tails64_zero]

theorem final128_zero (v : Lanes) (m : Memory) : final128 v m 0 = aval128 v := by
  rw [final128, bulk128_of_short (by decide), show fillOf 0 = 0 from rfl, tails128_zero]

theorem digest64_nil (seed : Word) : digest64 seed [] = (aval64 (seedLanes .m64 seed)).v0 := by
  rw [digest64, streamLanes_nil]
  exact congrArg Lanes.v0 (final64_zero _ _ _)

theorem digest128_nil (seed : Word) :
    digest128 seed [] = ((aval128 (seedLanes .m128 seed)).v0, (aval128 (seedLanes .m128 seed)).v1) := by
  have hfinal : final128 (seedLanes .m128 seed) (tailMemory []) (BitVec.ofNat 64 ([] : List Byte).length) =
      aval128 (seedLanes .m128 seed) := final128_zero _ _
  rw [digest128, streamLanes_nil, hfinal]

/-- The answers of a finalisation after `INIT` on `M64`, written out in the seed. -/
theorem digest64_nil_eq (seed : Word) :
    digest64 seed [] =
      let a := (seed + 0x62992FC1) * 0xD6D018F5
      let a1 := (a ^^^ rotr a 28) * 0xD6D018F5
      a1 ^^^ rotr a1 29 := by
  rw [digest64_nil, seedLanes, aval64_eq, seedWord64, constants]

theorem digest128_nil_eq (seed : Word) :
    digest128 seed [] =
      let a := (seed - 0xC83A91E1) * 0x2F5870A5
      let b := (seed + 0x8648DBDB) * 0x7BDEC03B
      let a1 := a + rotr (a * 0xC83A91E1 + b) 13
      let b1 := b + rotr (b * 0x8648DBDB + a1) 37
      let a2 := a1 + rotr (a1 * 0x7BDEC03B + b1) 13
      (a2, b1 + rotr (b1 * 0x2F5870A5 + a2) 37) := by
  rw [digest128_nil, seedLanes, aval128_eq, constants]

/-- Settles O29: after `INIT`, and after an empty `WRITE` too, the empty stream is held, and its digest is the avalanche
of the seed lanes. -/
theorem emptyStreamDigest : Obligations.EmptyStreamDigest := by
  refine ⟨fun seed s => ?_, by rw [digest64_nil_eq]; decide, by rw [digest64_nil_eq]; decide,
    by rw [digest128_nil_eq]; decide, by rw [digest128_nil_eq]; decide⟩
  obtain ⟨t, ht, hvariant, -, hholds⟩ := exec_init_holds seed s
  refine ⟨t, _, ht, (emptyWriteChangesNothing t).1 hholds.initd, rfl, rfl, fun h64 => ?_, fun h128 => ?_⟩
  · rw [hholds.represents.finishDigest_eq, hvariant, h64, finishWords, digest64_nil_eq]
  · have ht128 : t.variant = .m128 := hvariant.trans h128
    rw [hholds.represents.finishDigest_eq, hholds.represents.finish128Digest_eq ht128, ht128, finishWords,
      digest128_nil_eq]
    exact ⟨rfl, rfl⟩

/-! ### Finalisations in a row -/

/-- What `FINISH` answers does not depend on the responses emitted before it. -/
theorem exec_finish_repeats (s : State) :
    ∃ r, ∀ output, exec .finish { s with output := output } = .next { s with output := output ++ r } := by
  obtain hinit | hinit := Bool.eq_false_or_eq_true s.initd
  · exact ⟨0x00 :: s.finishDigest.flatMap wordBytes,
      fun output => exec_finish_of_initd (s := { s with output := output }) hinit⟩
  · exact ⟨[0x02], fun output => exec_finish_of_not_initd (s := { s with output := output }) hinit⟩

/-- What `FINISH128` answers does not depend on the responses emitted before it. -/
theorem exec_finish128_repeats (s : State) :
    ∃ q, ∀ output, exec .finish128 { s with output := output } = .next { s with output := output ++ q } := by
  obtain h64 | h128 := variant_cases s.variant
  · exact ⟨[0x03], fun output => exec_finish128_of_m64 (s := { s with output := output }) h64⟩
  obtain hinit | hinit := Bool.eq_false_or_eq_true s.initd
  · exact ⟨0x00 :: s.finish128Digest.flatMap wordBytes,
      fun output => exec_finish128_of_initd (s := { s with output := output }) h128 hinit⟩
  · exact ⟨[0x02], fun output => exec_finish128_of_not_initd (s := { s with output := output }) h128 hinit⟩

/-- A list of commands, each of which only ever emits its own response, emits those responses in order. -/
theorem runCommands_of_repeats {s : State} {response : Instr → List Byte} {commands : List Instr}
    (h : ∀ i ∈ commands, ∀ output,
      exec i { s with output := output } = .next { s with output := output ++ response i }) (output : List Byte) :
    runCommands commands { s with output := output } =
      .next { s with output := output ++ commands.flatMap response } := by
  induction commands generalizing output with
  | nil => rw [runCommands, List.flatMap_nil, List.append_nil]
  | cons i is ih =>
    rw [runCommands, h i List.mem_cons_self, List.flatMap_cons, ← List.append_assoc]
    exact ih (fun j hj => h j (List.mem_cons_of_mem i hj)) _

/-- Settles O30: each finalisation repeats its response and writes nothing that the next one reads. -/
theorem finalisationIsIdempotent : Obligations.FinalisationIsIdempotent := by
  intro s
  obtain ⟨r, hr⟩ := exec_finish_repeats s
  obtain ⟨q, hq⟩ := exec_finish128_repeats s
  refine ⟨r, q, fun sequence hsequence => runCommands_of_repeats (fun i hi output => ?_) s.output⟩
  obtain rfl | rfl := hsequence i hi
  · exact hr output
  · exact hq output

end Sys2Proof.Machine
end

section
/-! PROOFS. What every step keeps (10_state.md R29, R30) and what a reset leaves (R35, 70_reset_and_hazards.md R210): the
invariant, the reset event, and that register contents before the first `INIT` reach nothing. -/

namespace Sys2Proof.Machine

/-! ### The invariant -/

theorem State.Inv.respond {s : State} (h : s.Inv) (r : Response) : (s.respond r).Inv := by
  obtain ⟨hwf, hrep⟩ := h
  refine ⟨hwf, fun hinit => ?_⟩
  obtain ⟨seed, S, hS⟩ := hrep hinit
  exact ⟨seed, S, hS.respond r⟩

theorem State.Inv.withInput {s : State} (h : s.Inv) (rest : List Byte) : (s.withInput rest).Inv := by
  obtain ⟨hwf, hrep⟩ := h
  refine ⟨hwf, fun hinit => ?_⟩
  obtain ⟨seed, S, hS⟩ := hrep hinit
  exact ⟨seed, S, hS.total, hS.lanes, hS.vseed, hS.live⟩

theorem State.Holds.inv {s : State} {seed : Word} {S : List Byte} (h : s.Holds seed S) : s.Inv :=
  ⟨h.wf, fun _ => ⟨seed, S, h.represents⟩⟩

/-- Every command keeps the invariant: `INIT` starts an empty stream, `WRITE` extends the one there is, and the others
write no register. -/
theorem exec_keeps_inv {i : Instr} {s t : State} (h : s.Inv) (hexec : exec i s = .next t) : t.Inv := by
  cases CommandEffect.of_exec hexec with
  | init seed => exact (initAccumulator_holds seed s).inv.respond _
  | new => exact (initAccumulator_holds 0 s).inv.respond _
  | write hinit hrange =>
    obtain ⟨hwf, hrep⟩ := h
    obtain ⟨seed, S, hS⟩ := hrep hinit
    rw [hS.total] at hrange
    obtain ⟨t', ht', -, -, hholds⟩ := exec_write_holds ⟨hinit, hwf, hS⟩ hrange
    cases hexec.symm.trans ht'
    exact hholds.inv
  | finish | finish128 | refused => exact h.respond _

/-- Settles O38: a step runs a command, answers an illegal opcode, or waits. -/
theorem everyStepKeepsTheInvariant : Obligations.EveryStepKeepsTheInvariant := by
  intro s t h hstep
  obtain ⟨i, rest, hdec, -⟩ | ⟨op, hdec, -⟩ | ⟨hdec, -⟩ := fetch_cases s
  · rw [step_of_decode_ok hdec] at hstep
    exact exec_keeps_inv (h.withInput rest) hstep
  · rw [step_of_decode_illegal hdec] at hstep
    cases hstep
    exact (h.withInput _).respond _
  · rw [step_of_decode_incomplete hdec] at hstep
    cases hstep
    exact h

/-! ### Reset -/

/-- Settles O2: the buffer after a reset lists no cell, and no stream is claimed while `INITD` is 0. -/
theorem invariantHoldsAtReset : Obligations.InvariantHoldsAtReset :=
  ⟨fun _ => ⟨rfl, State.afterReset_buf_wf _ _ _ _, fun hinit => absurd hinit Bool.false_ne_true⟩, rfl⟩

/-- Settles O1: `INITD` is 0, so the commands that need it are refused, `FINISH128` on `M64` for its variant. -/
theorem resetEventClearsInitd : Obligations.ResetEventClearsInitd := by
  intro s stream payload
  have hinit : (s.assertReset stream).initd = false := rfl
  refine ⟨hinit, rfl, rfl, rfl, exec_write_of_not_initd payload hinit, exec_finish_of_not_initd hinit, ?_⟩
  obtain h64 | h128 := variant_cases s.variant
  · rw [if_pos h64]
    exact exec_finish128_of_m64 (s := s.assertReset stream) h64
  · rw [if_neg (by simp [h128])]
    exact exec_finish128_of_not_initd (s := s.assertReset stream) h128 hinit

/-! ### Register contents before the first `INIT` -/

/-- States that agree on both streams and on `INITD`, and on every register once `INITD` is 1. -/
structure State.AgreeOnceInitialised (s t : State) : Prop where
  output : s.output = t.output
  input : s.input = t.input
  initd : s.initd = t.initd
  registers : s.initd = true → s.SameRegisters t

section

variable {s t : State}

/-- Before `INIT`, a refusal with the same status from both. -/
theorem State.AgreeOnceInitialised.refuse (h : s.AgreeOnceInitialised t) (status : Status) :
    (s.refuse status).AgreeOnceInitialised (t.refuse status) :=
  ⟨by rw [State.refuse_output, State.refuse_output, h.output], h.input, h.initd,
    fun hinit => (h.registers hinit).respond ⟨status, []⟩⟩

theorem exec_init_agree (seed : Word) (hvariant : s.variant = t.variant) (h : s.AgreeOnceInitialised t) :
    ∃ s' t', exec (.init seed) s = .next s' ∧ exec (.init seed) t = .next t' ∧ s'.AgreeOnceInitialised t' := by
  obtain ⟨s', t', bytes, hs', ht', hsout, htout, -, hsame⟩ := exec_init_alike seed hvariant
  obtain ⟨-, hsin, -, -⟩ := (CommandEffect.of_exec hs').frame
  obtain ⟨-, htin, -, -⟩ := (CommandEffect.of_exec ht').frame
  exact ⟨s', t', hs', ht', by rw [hsout, htout, h.output], by rw [hsin, htin, h.input], hsame.initd, fun _ => hsame⟩

/-- Before `INIT` a command answers the same from any registers: `INIT` overwrites them, every other command is
refused. -/
theorem exec_agree_before_init (i : Instr) (hs : s.initd = false) (hvariant : s.variant = t.variant)
    (h : s.AgreeOnceInitialised t) :
    ∃ s' t', exec i s = .next s' ∧ exec i t = .next t' ∧ s'.AgreeOnceInitialised t' := by
  have ht : t.initd = false := h.initd.symm.trans hs
  cases i with
  | init seed => exact exec_init_agree seed hvariant h
  | new => exact exec_init_agree 0 hvariant h
  | write payload => exact ⟨_, _, exec_write_of_not_initd payload hs, exec_write_of_not_initd payload ht, h.refuse _⟩
  | finish => exact ⟨_, _, exec_finish_of_not_initd hs, exec_finish_of_not_initd ht, h.refuse _⟩
  | finish128 =>
    obtain h64 | h128 := variant_cases s.variant
    · exact ⟨_, _, exec_finish128_of_m64 h64, exec_finish128_of_m64 (hvariant ▸ h64), h.refuse _⟩
    · exact ⟨_, _, exec_finish128_of_not_initd h128 hs, exec_finish128_of_not_initd (hvariant ▸ h128) ht, h.refuse _⟩

theorem step_agree_before_init (hs : s.initd = false) (hvariant : s.variant = t.variant)
    (h : s.AgreeOnceInitialised t) : ∃ s' t', step s = .next s' ∧ step t = .next t' ∧ s'.AgreeOnceInitialised t' := by
  have hrest (rest : List Byte) : (s.withInput rest).AgreeOnceInitialised (t.withInput rest) :=
    ⟨h.output, rfl, h.initd, fun hinit => absurd (hs.symm.trans hinit) Bool.false_ne_true⟩
  have hin := h.input
  obtain ⟨i, rest, hdec, -⟩ | ⟨op, hdec, -⟩ | ⟨hdec, -⟩ := fetch_cases s
  · rw [step_of_decode_ok hdec, step_of_decode_ok (hin ▸ hdec)]
    exact exec_agree_before_init i hs hvariant (hrest rest)
  · rw [step_of_decode_illegal hdec, step_of_decode_illegal (hin ▸ hdec), ← hin]
    exact ⟨_, _, rfl, rfl, (hrest _).refuse _⟩
  · exact ⟨s, t, step_of_decode_incomplete hdec, step_of_decode_incomplete (hin ▸ hdec), h⟩

end

/-- Settles O3: the two steps agree on all that a response or a later state after `INIT` can show. -/
theorem uninitialisedValuesAreUnobservable : Obligations.UninitialisedValuesAreUnobservable := by
  intro s t hs ht hvariant hin hout
  obtain ⟨s', t', hs', ht', hagree⟩ := step_agree_before_init hs hvariant
    ⟨hout, hin, hs.trans ht.symm, fun hinit => absurd (hs.symm.trans hinit) Bool.false_ne_true⟩
  refine ⟨s', t', hs', ht', hagree.output, hagree.input, hagree.initd, fun hinit => ?_⟩
  obtain ⟨-, hv, hvseed, hbuf, htotal, -⟩ := hagree.registers hinit
  exact ⟨hv, htotal, hbuf, hvseed⟩

end Sys2Proof.Machine
end

section
/-! PROOFS. The assembler (30_encoding.md R72, R73): what it assembles fits its fields, and lines assemble one after
another. -/

namespace Sys2Proof.Machine

/-! ### Operands that fit their fields -/

theorem assembleInit_of_literal {operand : List Char} {n : Nat} (h : literal operand = some n) :
    assembleInit operand = if n < 2 ^ 64 then .ok (some (.init (BitVec.ofNat 64 n))) else .error .seedTooLarge := by
  simp only [assembleInit, h]

theorem assembleWrite_of_payload {operand : List Char} {payload : List Byte} (h : payloadOperand operand = some payload) :
    assembleWrite operand =
      if payload.length < 2 ^ 64 then .ok (some (.write payload)) else .error .payloadTooLong := by
  simp only [assembleWrite, h]

theorem wellFormed_of_assembleInit {operand : List Char} {i : Instr} (h : assembleInit operand = .ok (some i)) :
    i.WellFormed := by
  cases hn : literal operand with
  | none => simp [assembleInit, hn] at h
  | some n =>
    rw [assembleInit_of_literal hn] at h
    split at h
    · cases h
      trivial
    · cases h

theorem wellFormed_of_assembleWrite {operand : List Char} {i : Instr} (h : assembleWrite operand = .ok (some i)) :
    i.WellFormed := by
  cases hc : payloadOperand operand with
  | none => simp [assembleWrite, hc] at h
  | some payload =>
    rw [assembleWrite_of_payload hc] at h
    split at h
    · next hlen =>
      cases h
      exact hlen
    · cases h

theorem eq_of_assembleBare {i j : Instr} {operand : List Char} (h : assembleBare i operand = .ok (some j)) : j = i := by
  unfold assembleBare at h
  split at h
  · cases h
    rfl
  · cases h

/-- A line that holds a command goes to one of the five operand functions. -/
theorem assembleLine_cases {line : List Char} {i : Instr} (h : assembleLine line = .ok (some i)) :
    (∃ operand, assembleInit operand = .ok (some i)) ∨ (∃ operand, assembleWrite operand = .ok (some i)) ∨
    ∃ operand bare, (bare = .new ∨ bare = .finish ∨ bare = .finish128) ∧ assembleBare bare operand = .ok (some i) := by
  simp only [assembleLine] at h
  split at h
  · cases h
  split at h
  · exact .inl ⟨_, h⟩
  split at h
  · exact .inr (.inr ⟨_, _, .inl rfl, h⟩)
  split at h
  · exact .inr (.inl ⟨_, h⟩)
  split at h
  · exact .inr (.inr ⟨_, _, .inr (.inl rfl), h⟩)
  split at h
  · exact .inr (.inr ⟨_, _, .inr (.inr rfl), h⟩)
  · cases h

theorem wellFormed_of_assembleLine {line : List Char} {i : Instr} (h : assembleLine line = .ok (some i)) :
    i.WellFormed := by
  obtain ⟨_, hinit⟩ | ⟨_, hwrite⟩ | ⟨_, bare, hbare, hline⟩ := assembleLine_cases h
  · exact wellFormed_of_assembleInit hinit
  · exact wellFormed_of_assembleWrite hwrite
  · obtain rfl := eq_of_assembleBare hline
    obtain rfl | rfl | rfl := hbare <;> trivial

/-- Settles O52: the operand functions test their fields, and every line that holds a command goes through one. -/
theorem assembledCommandsFitTheirFields : Obligations.AssembledCommandsFitTheirFields :=
  ⟨fun _ _ h => wellFormed_of_assembleLine h, fun _ _ h => assembleInit_of_literal h,
    fun _ _ h => assembleWrite_of_payload h⟩

/-! ### Lines one after another -/

theorem assemble_cons {line : List Char} {lines : List (List Char)} {i : Instr} {bytes : List Byte}
    (hline : assembleLine line = .ok (some i)) (hlines : assemble lines = .ok bytes) :
    assemble (line :: lines) = .ok (encode i ++ bytes) := by
  simp only [assemble, hline, hlines]

/-- A line alone assembles to its command's encoding. -/
theorem assemble_line {line : List Char} {i : Instr} (h : assembleLine line = .ok (some i)) :
    assemble [line] = .ok (encode i) := by
  rw [assemble_cons h rfl, List.append_nil]

/-- Settles O53: each example line holds the command whose encoding the spec gives. -/
theorem linesAssembleToTheirBytes : Obligations.LinesAssembleToTheirBytes := by
  refine ⟨fun _ _ _ _ => assemble_cons, assemble_line (i := .init 1) ?_, assemble_line (i := .init 0x0123456789ABCDEF) ?_,
    assemble_line (i := .write [0x61, 0x62]) ?_, assemble_line (i := .write [0x61, 0x62]) ?_,
    assemble_line (i := .write []) ?_, assemble_line (i := .finish) ?_, assemble_line (i := .finish128) ?_,
    assemble_line (i := .new) ?_⟩ <;> decide

end Sys2Proof.Machine
end
